-- ==== Sys2Proof/Word.lean ====
section
/-! DEFINITION. The words of the unit: a register or command word of 32 bits (spec/00_scope.md R8), a
sample or a byte of the bit memory of 8 bits (R8), and the BitString of R15. -/

namespace Sys2Proof

/-- A 32-bit register word or command word (R8). -/
abbrev Word := BitVec 32

/-- An unsigned 8-bit sample, or one byte of the host's view of the bit memory (R8, R50). -/
abbrev Byte := BitVec 8

/-- A finite sequence of the characters '0' (`false`) and '1' (`true`), first character first (R15). -/
abbrev BitString := List Bool

end Sys2Proof
end

