-- ==== Sys2Proof/Syntax.lean ====
section
/-! DEFINITION. The commands of the unit: one constructor per row of spec/opcode_table.json. -/

namespace Sys2Proof

/-- The two commands of the opcode map (spec/30_encoding.md R81). A command has no operand fields: its
operands are registers and memories, read when the CMD write arrives (R82). -/
inductive Instr where
  /-- HIDE, the scatter operation (spec/40_hide.md R100). -/
  | hide
  /-- REVEAL, the gather operation (spec/41_reveal.md R120). -/
  | reveal
  deriving DecidableEq, Repr

end Sys2Proof
end

