-- ==== Sys2Proof/Decode.lean ====
section
/-! DEFINITION. Decoding a command word, total on all 2^32 words and without state (spec/30_encoding.md
R80 to R84, R90), and the encoder. The meaning of a word rests on the word alone. -/

namespace Sys2Proof

/-- Why a word is no command (R83). The unit reports the same ILLEGAL for both. -/
inductive IllegalWord where
  /-- OP is 1 or 2 but a bit of ZERO is set. -/
  | zeroFieldSet
  /-- OP is 0 or 3 to 15. -/
  | noSuchOpcode
  deriving DecidableEq, Repr

/-- Bits 3:0 of a command word, the opcode OP (R80). -/
def Word.opField (w : Word) : BitVec 4 := w.extractLsb' 0 4

/-- Bits 31:4 of a command word, the field ZERO (R80). -/
def Word.zeroField (w : Word) : BitVec 28 := w.extractLsb' 4 28

/-- One row of the opcode map (R81). -/
structure OpcodeRow where
  mask : Word
  pattern : Word
  instr : Instr
  deriving DecidableEq, Repr

/-- The complete opcode map, its masks and matches as R81 prints them. -/
def opcodeMap : List OpcodeRow :=
  [ { mask := 0xFFFFFFFF, pattern := 0x00000001, instr := .hide },
    { mask := 0xFFFFFFFF, pattern := 0x00000002, instr := .reveal } ]

/-- `w` selects the command of a row when `(w & mask) = match` (R81). -/
def OpcodeRow.selects (r : OpcodeRow) (w : Word) : Bool := w &&& r.mask == r.pattern

/-- The decoder: the command a word selects, or the reason it is illegal (R81, R83, R90). -/
def decode (w : Word) : Except IllegalWord Instr :=
  match opcodeMap.find? (fun r => r.selects w) with
  | some r => .ok r.instr
  | none =>
    if w.opField = 1 ∨ w.opField = 2 then .error .zeroFieldSet else .error .noSuchOpcode

/-- The OP value of a command (R81). -/
def opcodeOf : Instr → BitVec 4
  | .hide => 1
  | .reveal => 2

/-- The word of a command: ZERO above OP (R80). -/
def encode (i : Instr) : Word := (0 : BitVec 28) ++ opcodeOf i

/-- The command the decoder reads from the table's bits: a command is one 32-bit word (R80, R84), and
bits above `nbits` are 0. -/
def decodeTableWord (nbits w : Nat) : Option Instr :=
  match decode (BitVec.ofNat 32 (w % 2 ^ nbits)) with
  | .ok i => some i
  | .error _ => none

end Sys2Proof
end

