-- ==== Sys2Proof/Machine/Arith.lean ====
section
/-! DEFINITION. The notation of spec/00_scope.md section 4: readings of a word, exact integer arithmetic,
bits and bit strings. -/

namespace Sys2Proof.Machine

/-- `uint32(w)` (R10). -/
def uint32 (w : Word) : Nat := w.toNat

/-- `sint32(w)`, the two's-complement value (R10). -/
def sint32 (w : Word) : Int :=
  if w.toNat < 2 ^ 31 then (w.toNat : Int) else (w.toNat : Int) - 2 ^ 32

/-- `clamp(v, lo, hi)` (R11). -/
def clamp (v lo hi : Int) : Int :=
  if v < lo then lo else if hi < v then hi else v

/-- `ceil_div(a, n) = -floor((-a) / n)`, the exact ceiling for `a` of either sign (R12). -/
def ceilDiv (a : Int) (n : Nat) : Int := -Int.fdiv (-a) n

/-- `fmod(a, b) = a - b * floor(a / b)`, the floor-style modulo (R13). -/
def fmod (a b : Int) : Int := a - b * Int.fdiv a b

/-- `mask(k) = 2^k - 1`, as an 8-bit value (R14); used with `k <= 8`. -/
def mask (k : Nat) : Byte := BitVec.ofNat 8 (2 ^ k - 1)

/-- `low(v, k) = v mod 2^k` (R14). -/
def low (v k : Nat) : Nat := v % 2 ^ k

/-- `val(s)`: the unsigned integer a BitString denotes, first character most significant (R15). -/
def val (s : BitString) : Nat := s.foldl (fun acc b => 2 * acc + b.toNat) 0

/-- `bin_k(v)`: the `k`-character BitString of `v`, leading zeros kept (R15). -/
def bin (k v : Nat) : BitString := (List.range k).map fun t => v.testBit (k - 1 - t)

/-- `v` with bit `p` replaced by `b` (`BIT[j] <- b`: no other bit changes, R16). -/
def replaceBit (v : Byte) (p : Nat) (b : Bool) : Byte :=
  if b then v ||| BitVec.ofNat 8 (2 ^ p) else v &&& ~~~ BitVec.ofNat 8 (2 ^ p)

/-- `(v & ~mask(k)) | c`: the `k` low-order bits of a sample replaced by the `k`-bit value `c`
(spec/40_hide.md R105). -/
def replaceLow (v : Byte) (k c : Nat) : Byte := (v &&& ~~~ mask k) ||| BitVec.ofNat 8 c

/-- The bytes of a BitString, most significant bit first, the last one right-padded with '0'
(the packing of spec/20_memory.md R51, the padding of spec/30_encoding.md R88 and spec/45 R141). -/
def packBits (s : BitString) : List Byte :=
  (List.range ((s.length + 7) / 8)).map fun k =>
    BitVec.ofNat 8 (val ((List.range 8).map fun t => s.getD (8 * k + t) false))

/-- The BitString of a byte sequence: each byte as 8 characters, in byte order (R140, R51). -/
def unpackBytes (bs : List Byte) : BitString := bs.flatMap fun b => bin 8 b.toNat

end Sys2Proof.Machine
end

