-- ==== Sys2Proof/Machine/Move.lean ====
section
/-! DEFINITION. The names by which the host reaches the unit: address spaces, registers, and the host's
moves (spec/20_memory.md R50, R55; spec/10_state.md R31). -/

namespace Sys2Proof.Machine

/-- The three byte memories (R50): `bitb` is the host's byte view of the bit memory BIT, the same
storage. -/
inductive Bank where
  | src
  | dst
  | bitb
  deriving DecidableEq, Repr

/-- The four address spaces REG, SRC, DST, BITB (R50). -/
inductive Space where
  | reg
  | mem (b : Bank)
  deriving DecidableEq, Repr

/-- The seven registers of the register map (R31). -/
inductive RegName where
  | cmd
  | status
  | nbits
  | buflen
  | bitlen
  | length
  | outlen
  deriving DecidableEq, Repr

/-- What an access inside the defined ranges reaches: a whole register, or one byte of a memory (R53, R54). -/
inductive Target where
  | reg (r : RegName)
  | byte (b : Bank) (i : Nat)
  deriving DecidableEq, Repr

/-- One thing the outside world does to the unit. Addresses, widths and values are unbounded here, so
that an access the spec gives no meaning (R60) can be written down and is refused. -/
inductive Move where
  /-- The host's read of `nbytes` bytes at index `addr` of `space` (R55). -/
  | memRead (space : Space) (addr nbytes : Nat)
  /-- The host's write of the value `v` (R55). A write to CMD runs a command. -/
  | memWrite (space : Space) (addr nbytes v : Nat)
  /-- The host's write of the value its latest read returned, which the COPYBACK of
  spec/30_encoding.md R88 is made of (DESIGN CHOICE, log 12: a straight-line script holds no variables). -/
  | writeBack (space : Space) (addr nbytes : Nat)
  /-- The platform's reset, between two transactions (spec/70_reset_and_hazards.md R190; log 4). -/
  | platformReset
  deriving DecidableEq, Repr

end Sys2Proof.Machine
end

