-- ==== Sys2Proof/Config.lean ====
section
/-! DEFINITION. What the spec leaves to the implementation or leaves unspecified. Every constant here
has no body: a claim about the model holds for every value of it. -/

namespace Sys2Proof

/-- How far SAMPLE_CAP stays below its greatest value 2^28; any value from 0 to 2^28 - 1 (log 2). -/
opaque Config.capSlack : Fin (2 ^ 28)

/-- SAMPLE_CAP of the unit that comes out of reset: an OPEN parameter with `1 <= SAMPLE_CAP <= 2^28`
(spec/00_scope.md R6). The range is all a proof can know of it. -/
def Config.sampleCap : Nat := 2 ^ 28 - Config.capSlack.val

/-- FREE VALUE. The content of byte `i` of a memory that nothing has written since the `epoch`-th reset:
"any value, fixed at reset" (spec/20_memory.md R69, spec/10_state.md R39; log 3). -/
opaque Config.resetByte (epoch : Nat) (b : Machine.Bank) (i : Nat) : Byte

/-- FREE VALUE. The placeholder character of the host's permissive decoder, which the document does not
name (spec/45_host_binarycodec.md R142, spec/93 U3; log 11). Nothing of the unit reads it. -/
opaque Config.placeholder : Char

end Sys2Proof
end

