-- ==== Sys2Proof/Machine/State.lean ====
section
/-! DEFINITION. The state of the unit as plain data (spec/10_state.md R20), the reasons a step can stop,
and the state after reset (R39, R191). -/

namespace Sys2Proof.Machine

/-- The values of STATUS.CODE, the 2 bits of storage of the status register (R29). -/
inductive StatusCode where
  /-- 0: no command has been issued since reset. -/
  | none
  /-- 1: the most recent command completed and its results are valid. -/
  | ok
  /-- 2: the most recent command was a HIDE that failed with CapacityError. -/
  | capacity
  /-- 3: the most recent CMD write was not an executable command. -/
  | illegal
  deriving DecidableEq, Repr

/-- A byte memory: the bytes written since reset, in rising order of index, each index at most once. An
index that is not listed holds its unspecified reset content (R69; log 3, log 14). -/
abbrev Memory := List Host.Cell

/-- The machine stops with a fault: nothing does. Every CMD write completes (R212), the unit never enters
a state in which it refuses commands (R169), and its two errors are next states (R167; log 13). -/
inductive Fault where
  deriving DecidableEq, Repr

/-- The moves that are given no meaning: a host access outside the defined ranges (R60). Each refusal is
safe: no claim is made about a script that contains such a move. -/
inductive Refusal where
  /-- `exec` rejects an instruction that has no meaning yet; no arm does. Safe. -/
  | notModelled (mnemonic : String)
  /-- The host port (`locate`): an access whose width is not the space's one width (R55, R60). Safe. -/
  | wrongWidth
  /-- The host port (`locate`): a register number above 6 (R60). Safe. -/
  | noSuchRegister
  /-- The host port (`locate`): an index at or above SAMPLE_CAP (R60). Safe. -/
  | noSuchIndex
  /-- The host port (`hostWrite`): a value that does not fit the register or the byte (R60). Safe. -/
  | valueDoesNotFit
  /-- The host port (`perform`): a write-back by a host that has read nothing (log 12). Safe. -/
  | nothingRead
  deriving DecidableEq, Repr

/-- All the state of the unit (R20), and beside it four fields of the model's own. -/
structure State where
  /-- NBITS, register 2 (R21). -/
  nbits : Word
  /-- BUFLEN, register 3 (R22). -/
  buflen : Word
  /-- BITLEN, register 4 (R23). -/
  bitlen : Word
  /-- LENGTH, register 5 (R24). -/
  length : Word
  /-- OUTLEN, register 6 (R25). -/
  outlen : Word
  /-- STATUS.CODE, all the storage of register 1 (R29). CMD, register 0, stores nothing (R30). -/
  code : StatusCode
  /-- SRC, the source samples (R33). -/
  src : Memory
  /-- DST, the destination samples (R34). -/
  dst : Memory
  /-- BIT, held as the bytes of its view BITB: the same storage (R35, R50). -/
  bitb : Memory
  /-- The parameter SAMPLE_CAP (R6); not state of the unit, and no step changes it (log 2). -/
  cap : Nat
  /-- Which reset's draw the unlisted bytes hold (log 3); not state of the unit. -/
  epoch : Nat
  /-- The host's moves still to come, the next one first (R17, R89; log 1); not state of the unit. -/
  script : List Move
  /-- The values the host's reads returned, oldest first (R87; log 7); not state of the unit. -/
  readings : List Nat
  deriving DecidableEq, Repr

/-- The unit of capacity `cap` right after its first reset: registers 0, STATUS.CODE NONE, nothing
written in any memory (R39, R191, R192), and no move pending. -/
def State.resetWith (cap : Nat) : State :=
  { nbits := 0, buflen := 0, bitlen := 0, length := 0, outlen := 0, code := .none,
    src := [], dst := [], bitb := [], cap := cap, epoch := 0, script := [], readings := [] }

/-- The unit right after reset, for a SAMPLE_CAP that can be any value of its range (R6, R39). -/
def State.reset : State := State.resetWith Config.sampleCap

end Sys2Proof.Machine
end

