-- ==== Sys2Proof/Machine/Ops.lean ====
section
/-! DEFINITION. The named operations over memories and registers, one home for each: byte and bit
accesses, register accesses, the loop of the pseudocode, reset, and ending a command with an error. -/

namespace Sys2Proof.Machine

/-- Canonical form of a memory: indices strictly rise. An unlisted index reads as no byte at all at this
level, so no entry can equal what it reads as (log 14). -/
def Memory.wf (m : Memory) : Bool := (m.map Prod.fst).Pairwise (· < ·)

/-- Every listed index exists: indices run from 0 to SAMPLE_CAP - 1 (R50). -/
def Memory.within (cap : Nat) (m : Memory) : Bool := m.all fun c => c.1 < cap

/-- The byte written at index `i` since reset, if one was. -/
def Memory.get? : Memory → Nat → Option Byte
  | [], _ => none
  | (a, v) :: rest, i => if a = i then some v else Memory.get? rest i

/-- Writes the byte `v` at index `i`, keeping the canonical form. -/
def Memory.set : Memory → Nat → Byte → Memory
  | [], i, v => [(i, v)]
  | (a, w) :: rest, i, v =>
    if i < a then (i, v) :: (a, w) :: rest
    else if i = a then (i, v) :: rest
    else (a, w) :: Memory.set rest i v

/-- The storage of one byte memory. -/
def State.bank (s : State) : Bank → Memory
  | .src => s.src
  | .dst => s.dst
  | .bitb => s.bitb

/-- `SRC[i]`, `DST[i]` or `BITB[i]`: the byte last written there, or the free value that index has held
since reset (R62, R69). -/
def State.byte (s : State) (b : Bank) (i : Nat) : Byte :=
  match (s.bank b).get? i with
  | some v => v
  | none => Config.resetByte s.epoch b i

/-- `SRC[i] <- v`, `DST[i] <- v` or `BITB[i] <- v` (R16). -/
def State.setByte (s : State) (b : Bank) (i : Nat) (v : Byte) : State :=
  match b with
  | .src => { s with src := s.src.set i v }
  | .dst => { s with dst := s.dst.set i v }
  | .bitb => { s with bitb := s.bitb.set i v }

/-- `BIT[j]`: bit `7 - (j mod 8)` of byte `BITB[j div 8]` (R51). -/
def State.bit (s : State) (j : Nat) : Bool := (s.byte .bitb (j / 8)).getLsbD (7 - j % 8)

/-- `BIT[j] <- b`: that one bit of the byte changes, no other (R16, R51). -/
def State.setBit (s : State) (j : Nat) (b : Bool) : State :=
  s.setByte .bitb (j / 8) (replaceBit (s.byte .bitb (j / 8)) (7 - j % 8) b)

/-- `BITS(a, k)`: the BitString `BIT[a] BIT[a+1] ... BIT[a+k-1]` (R16). -/
def State.bits (s : State) (a k : Nat) : BitString := (List.range k).map fun t => s.bit (a + t)

/-- `for i in lo .. lo+count-1: body`, in ascending order (log 6). -/
def forRange {σ : Type} (lo count : Nat) (body : Nat → σ → σ) (s : σ) : σ :=
  match count with
  | 0 => s
  | k + 1 => body (lo + k) (forRange lo k body s)

/-- The register with a number of the register map; numbers 7 and above are undefined (R31). -/
def registerNumbered : Nat → Option RegName
  | 0 => some .cmd
  | 1 => some .status
  | 2 => some .nbits
  | 3 => some .buflen
  | 4 => some .bitlen
  | 5 => some .length
  | 6 => some .outlen
  | _ => none

/-- The number of a register in the register map (R31). -/
def RegName.number : RegName → Nat
  | .cmd => 0
  | .status => 1
  | .nbits => 2
  | .buflen => 3
  | .bitlen => 4
  | .length => 5
  | .outlen => 6

/-- The word STATUS reads as: CODE in bits 1:0, bits 31:2 zero (R29). -/
def StatusCode.toWord : StatusCode → Word
  | .none => 0
  | .ok => 1
  | .capacity => 2
  | .illegal => 3

/-- What a host read of a register returns; CMD has no storage and reads 0 (R30, R31). -/
def State.readReg (s : State) : RegName → Word
  | .cmd => 0
  | .status => s.code.toWord
  | .nbits => s.nbits
  | .buflen => s.buflen
  | .bitlen => s.bitlen
  | .length => s.length
  | .outlen => s.outlen

/-- What a host write stores in a register: the operand registers take the word; writes to STATUS and
OUTLEN are ignored, and CMD has no storage (R25, R29, R30, R31). -/
def State.writeReg (s : State) (r : RegName) (w : Word) : State :=
  match r with
  | .cmd => s
  | .status => s
  | .nbits => { s with nbits := w }
  | .buflen => { s with buflen := w }
  | .bitlen => { s with bitlen := w }
  | .length => { s with length := w }
  | .outlen => s

/-- `STATUS.CODE <- c` (R29). -/
def State.setCode (s : State) (c : StatusCode) : State := { s with code := c }

/-- `reg[OUTLEN] <- v`, which only a successful REVEAL does (R25, R127). -/
def State.setOutlen (s : State) (v : Nat) : State := { s with outlen := BitVec.ofNat 32 v }

/-- `raise <Error>()`, the unit's whole exception mechanism: STATUS.CODE receives the error's code, and
nothing else is written, saved or changed; control returns to the host (R16, R167, R168). There is no
return operation, since there is nothing to restore (R169). -/
def State.raise (s : State) (code : StatusCode) : State := s.setCode code

/-- The script recorder keeps the value a read returned (R87; log 7). -/
def State.record (s : State) (v : Nat) : State := { s with readings := s.readings ++ [v] }

/-- The platform's reset: every register at its reset value, every memory at a fresh draw of unspecified
contents (R190, R191, R192; log 4). The parameter and the host's own data stay. -/
def State.platformReset (s : State) : State :=
  { State.resetWith s.cap with
    epoch := s.epoch + 1, script := s.script, readings := s.readings }

end Sys2Proof.Machine
end

