-- ==== Sys2Proof/Machine/Operands.lean ====
section
/-! DEFINITION. The operands of a command, as spec/30_encoding.md R82 reads them from the registers and
memories when the CMD write arrives. -/

namespace Sys2Proof.Machine

/-- `n = clamp(sint32(reg[NBITS]), 1, 8)`, the effective bit width; the clamp is silent (R11, R101, R121). -/
def State.width (s : State) : Nat := (clamp (sint32 s.nbits) 1 8).toNat

/-- `B = uint32(reg[BUFLEN])`, the number of samples of the buffer (R22). -/
def State.bufferLen (s : State) : Nat := uint32 s.buflen

/-- `m = uint32(reg[BITLEN])`, the length of the bit string HIDE embeds (R23). -/
def State.bitCount (s : State) : Nat := uint32 s.bitlen

/-- `L = sint32(reg[LENGTH])`, the number of bits REVEAL is asked for, of either sign (R24). -/
def State.requested (s : State) : Int := sint32 s.length

/-- `uint32(reg[OUTLEN])`, the length of the string a REVEAL returned (R25). -/
def State.resultLen (s : State) : Nat := uint32 s.outlen

/-- `q = ceil_div(m, n)`, the number of chunks of an `m`-character string (R104). -/
def chunkCount (m n : Nat) : Nat := (ceilDiv m n).toNat

/-- `k_i = min(n, m - i*n)`, the length of chunk `i` (R104). -/
def chunkLen (m n i : Nat) : Nat := min n (m - i * n)

/-- The number `p` of samples REVEAL reads: `ceil_div(L, n)`, or the whole buffer when that is
non-positive or exceeds it (R123, R124). -/
def samplesRead (l : Int) (n b : Nat) : Nat :=
  let p0 := ceilDiv l n
  if p0 ≤ 0 ∨ (b : Int) < p0 then b else p0.toNat

/-- The number `d` of characters REVEAL drops: `-fmod(L, -n)`, from 0 to n - 1 (R126). -/
def dropCount (l : Int) (n : Nat) : Int := -fmod l (-(n : Int))

/-- `outlen = max(0, p*n - d)`, the length of REVEAL's result (R126). -/
def resultCount (l : Int) (n b : Nat) : Nat :=
  (max 0 ((samplesRead l n b : Int) * n - dropCount l n)).toNat

end Sys2Proof.Machine
end

