-- ==== Sys2Proof/Machine/Flags.lean ====
section
/-! DEFINITION. The one flag field of the unit, STATUS.CODE (spec/10_state.md R29), and the checks that
decide it, in the fixed order of spec/60_exceptions.md R166. -/

namespace Sys2Proof.Machine

/-- `B > SAMPLE_CAP`: the buffer does not exist in the unit's memory (R102, R122, R163). -/
def State.bufferTooLong (s : State) : Bool := s.cap < s.bufferLen

/-- `m > B * n`, the product exact and `n` the clamped width: the string does not fit (R103, R161). -/
def State.stringTooLong (s : State) : Bool := s.bufferLen * s.width < s.bitCount

/-- The error a HIDE ends with, if any: ILLEGAL before CAPACITY (R166). -/
def State.hideError (s : State) : Option StatusCode :=
  if s.bufferTooLong then some .illegal
  else if s.stringTooLong then some .capacity
  else none

/-- The error a REVEAL ends with, if any: only ILLEGAL (R122, R160). -/
def State.revealError (s : State) : Option StatusCode :=
  if s.bufferTooLong then some .illegal else none

end Sys2Proof.Machine
end

