-- ==== Sys2Proof/Machine/Hide.lean ====
section
/-! DEFINITION. HIDE, the scatter command (spec/40_hide.md R100 to R116). -/

namespace Sys2Proof.Machine

/-- Lane `i` of the scatter, for a chunk slot: the last `k` bits of `SRC[i]` replaced by chunk `i`, and
the result written to `DST[i]` (R105). -/
def hideChunkLane (n m i : Nat) (s : State) : State :=
  let k := chunkLen m n i
  let c := val (s.bits (i * n) k)
  s.setByte .dst i (replaceLow (s.byte .src i) k c)

/-- Lane `i` beyond the chunks: `DST[i] <- SRC[i]` (R106). -/
def hideCopyLane (i : Nat) (s : State) : State := s.setByte .dst i (s.byte .src i)

/-- The lanes of a HIDE whose checks have passed: the chunk slots, then the copied slots (R100). -/
def hideLanes (s : State) : State :=
  let n := s.width
  let b := s.bufferLen
  let m := s.bitCount
  let q := chunkCount m n
  forRange q (b - q) hideCopyLane (forRange 0 q (hideChunkLane n m) s)

/-- HIDE: the checks in order, then the scatter and STATUS.CODE = OK (R100, R108). -/
def execHide (s : State) : Host.Outcome State Fault Refusal :=
  match s.hideError with
  | some code => .next (s.raise code)
  | none => .next ((hideLanes s).setCode .ok)

end Sys2Proof.Machine
end

