-- ==== Sys2Proof/Machine/Reveal.lean ====
section
/-! DEFINITION. REVEAL, the gather command (spec/41_reveal.md R120 to R136). -/

namespace Sys2Proof.Machine

/-- Character `t` of slot `i`: bit `n - 1 - t` of `SRC[i]` goes to bit index `i*n + t`, if that lies
below `outlen` (R125, R127). -/
def revealBit (n outlen i t : Nat) (s : State) : State :=
  let j := i * n + t
  if j < outlen then s.setBit j ((s.byte .src i).getLsbD (n - 1 - t)) else s

/-- Lane `i` of the gather: the last `n` bits of `SRC[i]`, the more significant bit first (R125, R135). -/
def revealLane (n outlen i : Nat) (s : State) : State := forRange 0 n (revealBit n outlen i) s

/-- The lanes of a REVEAL whose check has passed: the first `p` samples (R120). -/
def revealLanes (s : State) : State :=
  let n := s.width
  let b := s.bufferLen
  let l := s.requested
  forRange 0 (samplesRead l n b) (revealLane n (resultCount l n b)) s

/-- REVEAL: the check, then the gather, OUTLEN, and STATUS.CODE = OK (R120, R127). -/
def execReveal (s : State) : Host.Outcome State Fault Refusal :=
  match s.revealError with
  | some code => .next (s.raise code)
  | none =>
    .next (((revealLanes s).setOutlen (resultCount s.requested s.width s.bufferLen)).setCode .ok)

end Sys2Proof.Machine
end

