-- ==== Sys2Proof/Machine/Dispatch.lean ====
section
/-! DEFINITION. One arm per command (spec/30_encoding.md R81). -/

namespace Sys2Proof.Machine

/-- The effect of a command, from the state its CMD write finds to the state it leaves (R58). -/
def exec (i : Instr) (s : State) : Host.Outcome State Fault Refusal :=
  match i with
  | .hide => Sys2Proof.Machine.execHide s
  | .reveal => Sys2Proof.Machine.execReveal s

end Sys2Proof.Machine
end

