-- ==== Sys2Proof/Machine/HostPort.lean ====
section
/-! DEFINITION. The host's transactions (spec/20_memory.md R55), the accesses that are refused (R60), and
the CMD write, which runs a whole command (spec/10_state.md R30). -/

namespace Sys2Proof.Machine

/-- What an access reaches: a register by its number and whole word, a sample or a bit byte by its index;
any other access is refused (R53, R54, R55, R60; the order of the refusals is log 5). -/
def locate (cap : Nat) (sp : Space) (addr nbytes : Nat) : Except Refusal Target :=
  match sp with
  | .reg =>
    if nbytes ≠ 4 then .error .wrongWidth
    else match registerNumbered addr with
      | some r => .ok (.reg r)
      | none => .error .noSuchRegister
  | .mem b =>
    if nbytes ≠ 1 then .error .wrongWidth
    else if addr < cap then .ok (.byte b addr)
    else .error .noSuchIndex

/-- The value a host read returns; a read has no side effect (R55). -/
def hostRead (s : State) : Target → Nat
  | .reg r => (s.readReg r).toNat
  | .byte b i => (s.byte b i).toNat

/-- A value fits a register of 32 bits or a byte (R55, R60). -/
def valueFits : Target → Nat → Bool
  | .reg _, v => v < 2 ^ 32
  | .byte _ _, v => v < 2 ^ 8

/-- A CMD write: decodes the word, executes the command it names to completion; an illegal word raises
ILLEGAL and changes nothing else (R30, R58, R83, R162). -/
def runCommand (w : Word) (s : State) : Host.Outcome State Fault Refusal :=
  match decode w with
  | .ok i => exec i s
  | .error _ => .next (s.raise .illegal)

/-- A host write that reaches its target (R55). -/
def hostWrite (t : Target) (v : Nat) (s : State) : Host.Outcome State Fault Refusal :=
  if valueFits t v then
    match t with
    | .reg .cmd => runCommand (BitVec.ofNat 32 v) s
    | .reg r => .next (s.writeReg r (BitVec.ofNat 32 v))
    | .byte b i => .next (s.setByte b i (BitVec.ofNat 8 v))
  else .refused .valueDoesNotFit

/-- One move of the outside world, performed on the unit as one indivisible transaction (R55, R58). -/
def perform (mv : Move) (s : State) : Host.Outcome State Fault Refusal :=
  match mv with
  | .memRead sp addr nbytes =>
    match locate s.cap sp addr nbytes with
    | .ok t => .next (s.record (hostRead s t))
    | .error r => .refused r
  | .memWrite sp addr nbytes v =>
    match locate s.cap sp addr nbytes with
    | .ok t => hostWrite t v s
    | .error r => .refused r
  | .writeBack sp addr nbytes =>
    match s.readings.getLast? with
    | none => .refused .nothingRead
    | some v =>
      match locate s.cap sp addr nbytes with
      | .ok t => hostWrite t v s
      | .error r => .refused r
  | .platformReset => .next s.platformReset

/-- The host takes its next move off its script (log 1). -/
def State.withScript (s : State) (moves : List Move) : State := { s with script := moves }

/-- Does the next move of the host's script, or nothing when the host does nothing (R17, R18). -/
def performNext (s : State) : Host.Outcome State Fault Refusal :=
  match s.script with
  | [] => .next s
  | mv :: rest => perform mv (s.withScript rest)

/-- The host's write of a command word to CMD (R55, R87). -/
def commandWrite (w : Word) : Move := .memWrite .reg 0 4 w.toNat

end Sys2Proof.Machine
end

