-- ==== Sys2Proof/Machine/Step.lean ====
section
/-! DEFINITION. One step: the next transaction of the host (spec/00_scope.md R17). -/

namespace Sys2Proof.Machine

/-- One step performs the host's next transaction; a CMD write runs a whole command (R17, R58; log 1). -/
def step (s : State) : Host.Outcome State Fault Refusal := performNext s

/-- `s` with the CMD write of the table's word as the host's next move, ahead of the moves it had: the
unit fetches no instructions, a command is the data of a CMD write (R28, R66; log 1). -/
def State.withFetchWord (s : State) (nbits w : Nat) : State :=
  s.withScript (commandWrite (BitVec.ofNat 32 (w % 2 ^ nbits)) :: s.script)

end Sys2Proof.Machine
end

