-- ==== Sys2Proof/Machine/Codec.lean ====
section
/-! DEFINITION. The host's BinaryCodec (spec/45_host_binarycodec.md R140 to R145). Nothing here is part of
the unit (R4); it is what the document's end-to-end property is stated through. The UTF-8 encoding itself
is PRESUMED (the Unicode standard's), the document not defining it (log 11). -/

namespace Sys2Proof.Machine

/-- A Message: "a sequence of Unicode codepoints" (spec/00_scope.md R19). -/
abbrev Message := List Char

/-- The UTF-8 bytes of one codepoint, one to four of them (R140; log 11). -/
def utf8Bytes (c : Char) : List Byte :=
  let v := c.toNat
  let lead (base d : Nat) : Byte := BitVec.ofNat 8 (base + v / d)
  let cont (d : Nat) : Byte := BitVec.ofNat 8 (0x80 + v / d % 64)
  if v < 0x80 then [lead 0 1]
  else if v < 0x800 then [lead 0xC0 64, cont 1]
  else if v < 0x10000 then [lead 0xE0 4096, cont 64, cont 1]
  else [lead 0xF0 262144, cont 4096, cont 64, cont 1]

/-- The UTF-8 bytes of a Message, in order (R140). -/
def messageBytes (msg : Message) : List Byte := msg.flatMap utf8Bytes

/-- `encode(message)`: each UTF-8 byte as an 8-bit binary string, in byte order (R140). -/
def encodeMessage (msg : Message) : BitString := unpackBytes (messageBytes msg)

/-- The payload of a continuation byte `10xxxxxx`, if `b` is one (log 11). -/
def contPayload (b : Byte) : Option Nat :=
  if 0x80 ≤ b.toNat ∧ b.toNat < 0xC0 then some (b.toNat - 0x80) else none

/-- The codepoint `v`, if it is one and needed a sequence this long (`lo <= v`; log 11). -/
def codepointAtLeast (lo v : Nat) : Option Char :=
  if lo ≤ v ∧ v.isValidChar then some (Char.ofNat v) else none

/-- Folds continuation bytes into the payload `acc`; none if a byte is missing or is no continuation. -/
def takeConts : Nat → Nat → List Byte → Option Nat
  | 0, acc, _ => some acc
  | _ + 1, _, [] => none
  | k + 1, acc, b :: rest =>
    match contPayload b with
    | some x => takeConts k (acc * 64 + x) rest
    | none => none

/-- How a lead byte starts a sequence: its payload, the number of continuation bytes, and the least
codepoint a sequence of that length may hold (log 11). -/
def leadShape (b : Byte) : Option (Nat × Nat × Nat) :=
  let v := b.toNat
  if v < 0x80 then some (v, 0, 0)
  else if v < 0xC0 then none
  else if v < 0xE0 then some (v - 0xC0, 1, 0x80)
  else if v < 0xF0 then some (v - 0xE0, 2, 0x800)
  else if v < 0xF8 then some (v - 0xF0, 3, 0x10000)
  else none

/-- The codepoint at the front of `b :: rest` and how many bytes of `rest` it takes; none at an
undecodable byte position. -/
def decodeFront (b : Byte) (rest : List Byte) : Option (Char × Nat) :=
  match leadShape b with
  | none => none
  | some (acc, k, lo) =>
    match takeConts k acc rest with
    | none => none
    | some v => (codepointAtLeast lo v).map fun c => (c, k)

/-- Permissive UTF-8 decoding: every undecodable byte position gives the placeholder (R142; log 11). The
first argument bounds the number of positions left to look at. -/
def utf8Decode : Nat → List Byte → Message
  | 0, _ => []
  | _ + 1, [] => []
  | fuel + 1, b :: rest =>
    match decodeFront b rest with
    | some (c, k) => c :: utf8Decode fuel (rest.drop k)
    | none => Config.placeholder :: utf8Decode fuel rest

/-- `decode(bits)`: 8-character chunks, a short last chunk right-padded with '0', one byte each, then
permissive UTF-8 decoding; the empty string gives the empty message (R141, R142, R143). -/
def decodeMessage (bits : BitString) : Message :=
  let bytes := packBits bits
  utf8Decode bytes.length bytes

/-- What the host does to the bytes it reads back before decoding them: of a last byte that holds only
`outlen mod 8` result bits, the stale low-order bits are cleared (R145, R204). -/
def clearStaleBits (outlen : Nat) (bytes : List Byte) : List Byte :=
  bytes.mapIdx fun k b =>
    if k = outlen / 8 then b &&& ~~~ mask (8 - outlen % 8) else b

end Sys2Proof.Machine
end

