-- ==== Sys2Proof/Machine/Script.lean ====
section
/-! DEFINITION. The host script notation (spec/30_encoding.md R87, R88) as sequences of moves, the
flattening order of an image (spec/20_memory.md R64), and the two host flows (spec/45 R146, R147).
Notation and host software only: nothing here changes what the unit does. -/

namespace Sys2Proof.Machine

/-- The statements and pseudo-statements of the script notation (R87, R88). A number written for a
register may be negative and stands for its 32-bit word. -/
inductive ScriptLine where
  | wr (r : RegName) (v : Int)
  | rd (r : RegName)
  | hide
  | reveal
  | cmd (w : Int)
  | ws (i v : Nat)
  | rs (i : Nat)
  | wd (i v : Nat)
  | rdst (i : Nat)
  | wb (k v : Nat)
  | rb (k : Nat)
  | srcFill (i0 : Nat) (vs : List Nat)
  | bitFill (k0 : Nat) (vs : List Nat)
  | bitStr (s : BitString)
  | copyBack (t : Nat)
  | expect (r : RegName) (v : Int)
  deriving DecidableEq, Repr

/-- The 32-bit word a script's number stands for (R87). -/
def scriptWord (v : Int) : Nat := (BitVec.ofInt 32 v).toNat

/-- One byte write per value, at ascending indices (R88). -/
def fillMoves (b : Bank) (i0 : Nat) (vs : List Nat) : List Move :=
  vs.mapIdx fun t v => .memWrite (.mem b) (i0 + t) 1 v

/-- The moves a statement stands for (R87, R88). -/
def ScriptLine.moves : ScriptLine → List Move
  | .wr r v => [.memWrite .reg r.number 4 (scriptWord v)]
  | .rd r => [.memRead .reg r.number 4]
  | .hide => [.memWrite .reg 0 4 0x00000001]
  | .reveal => [.memWrite .reg 0 4 0x00000002]
  | .cmd w => [.memWrite .reg 0 4 (scriptWord w)]
  | .ws i v => [.memWrite (.mem .src) i 1 v]
  | .rs i => [.memRead (.mem .src) i 1]
  | .wd i v => [.memWrite (.mem .dst) i 1 v]
  | .rdst i => [.memRead (.mem .dst) i 1]
  | .wb k v => [.memWrite (.mem .bitb) k 1 v]
  | .rb k => [.memRead (.mem .bitb) k 1]
  | .srcFill i0 vs => fillMoves .src i0 vs
  | .bitFill k0 vs => fillMoves .bitb k0 vs
  | .bitStr s => fillMoves .bitb 0 ((packBits s).map BitVec.toNat)
  | .copyBack t => (List.range t).flatMap fun i =>
      [.memRead (.mem .dst) i 1, .writeBack (.mem .src) i 1]
  | .expect r _ => [.memRead .reg r.number 4]

/-- The moves of a script: a straight line (R85, R87). -/
def scriptMoves (lines : List ScriptLine) : List Move := lines.flatMap ScriptLine.moves

/-- For each value a statement records, the value the script claims it is, if it claims one (R88). -/
def ScriptLine.claims : ScriptLine → List (Option Nat)
  | .rd _ => [none]
  | .rs _ => [none]
  | .rdst _ => [none]
  | .rb _ => [none]
  | .copyBack t => List.replicate t none
  | .expect _ v => [some (scriptWord v)]
  | .wr _ _ | .hide | .reveal | .cmd _ | .ws _ _ | .wd _ _ | .wb _ _ => []
  | .srcFill _ _ | .bitFill _ _ | .bitStr _ => []

/-- The recorded values are one per read, and every EXPECT claim of the script holds of them (R88). -/
def scriptClaimsHold (lines : List ScriptLine) (readings : List Nat) : Bool :=
  let claims := lines.flatMap ScriptLine.claims
  claims.length == readings.length &&
    (claims.zip readings).all fun cv => cv.1.all fun v => v == cv.2

/-- The index of the sample of row `r`, column `c`, channel `ch` of an image of width `w` with `chans`
channels: row-major, channel-last (R64). -/
def flatIndex (w chans r c ch : Nat) : Nat := (r * w + c) * chans + ch

/-- The embedding flow up to its STATUS read: the flattened image and the UTF-8 bytes of the message
loaded, the operands written, HIDE issued (R146). -/
def embedFlow (image message : List Nat) (n : Int) : List ScriptLine :=
  [ .srcFill 0 image, .bitFill 0 message, .wr .nbits n, .wr .buflen image.length,
    .wr .bitlen (8 * message.length : Nat), .hide, .rd .status ]

/-- Reading the output buffer back, on OK (R146). -/
def stegoReads (b : Nat) : List ScriptLine := (List.range b).map .rdst

/-- The extraction flow up to its STATUS and OUTLEN reads (R147). -/
def extractFlow (stego : List Nat) (n len : Int) : List ScriptLine :=
  [ .srcFill 0 stego, .wr .nbits n, .wr .buflen stego.length, .wr .length len, .reveal,
    .rd .status, .rd .outlen ]

/-- Reading the `ceil_div(OUTLEN, 8)` bytes of the result, on OK (R147). -/
def resultReads (outlen : Nat) : List ScriptLine := (List.range ((outlen + 7) / 8)).map .rb

end Sys2Proof.Machine
end

