-- ==== Sys2Proof/WellFormed.lean ====
section
/-! DEFINITION. Which instructions, host moves and script statements are ones the spec gives. -/

namespace Sys2Proof

/-- A command has no operand fields, so every one is well formed (spec/30_encoding.md R80, R82). -/
def Instr.wf : Instr → Bool
  | .hide => true
  | .reveal => true

namespace Machine

/-- The accesses of spec/20_memory.md R55: one register word with number 0 to 6, or one byte with index
below SAMPLE_CAP. -/
def accessWf (cap : Nat) : Space → Nat → Nat → Bool
  | .reg, addr, nbytes => addr ≤ 6 && nbytes == 4
  | .mem _, addr, nbytes => addr < cap && nbytes == 1

/-- A value that fits what the space holds (R55, R60). -/
def valueWf : Space → Nat → Bool
  | .reg, v => v ≤ 0xFFFFFFFF
  | .mem _, v => v ≤ 255

/-- The moves the spec gives the host and the platform (R55, R89, R190); the rest are refused (R60). A
write-back needs a value read before it (`last`), which must fit. -/
def Move.wf (cap : Nat) (last : Option Nat) : Move → Bool
  | .memRead sp addr nbytes => accessWf cap sp addr nbytes
  | .memWrite sp addr nbytes v => accessWf cap sp addr nbytes && valueWf sp v
  | .writeBack sp addr nbytes => accessWf cap sp addr nbytes && last.any (valueWf sp)
  | .platformReset => true

/-- A script's number that stands for a 32-bit word, unsigned or negative (R87). -/
def scriptNumberWf (v : Int) : Bool := -2 ^ 31 ≤ v && v < 2 ^ 32

/-- The statements the script notation has (spec/30_encoding.md R87, R88): WR writes an operand register,
RD and EXPECT read any register but CMD. -/
def ScriptLine.wf : ScriptLine → Bool
  | .wr r v => (r == .nbits || r == .buflen || r == .bitlen || r == .length) && scriptNumberWf v
  | .rd r => r != .cmd
  | .expect r v => r != .cmd && scriptNumberWf v
  | .cmd w => scriptNumberWf w
  | .hide | .reveal | .copyBack _ | .bitStr _ => true
  | .ws _ v | .wd _ v | .wb _ v => v ≤ 255
  | .rs _ | .rdst _ | .rb _ => true
  | .srcFill _ vs | .bitFill _ vs => vs.all fun v => v ≤ 255

end Machine

end Sys2Proof
end

