-- ==== Sys2Proof/Safety.lean ====
section
/-! DEFINITION. What a state that makes sense on this hardware is, and what a safe step is. -/

namespace Sys2Proof.Machine

/-- The invariant of the unit: SAMPLE_CAP in its range (R6), each memory in canonical form with every
listed index below SAMPLE_CAP (R50), and OUTLEN in its range 0 to 8 * SAMPLE_CAP (R25). -/
abbrev State.Inv (s : State) : Prop :=
  (1 ≤ s.cap ∧ s.cap ≤ 2 ^ 28) ∧
  (s.src.wf ∧ s.src.within s.cap) ∧
  (s.dst.wf ∧ s.dst.within s.cap) ∧
  (s.bitb.wf ∧ s.bitb.within s.cap) ∧
  s.resultLen ≤ 8 * s.cap

/-- The host's next move, if it has one, is one the spec gives it (R55, R60). -/
def State.nextMoveWf (s : State) : Bool := s.script.head?.all (Move.wf s.cap s.readings.getLast?)

/-- The step goes on: no refusal (and no fault, there being none). -/
def State.steps (s : State) : Prop := ∃ t, step s = .next t

end Sys2Proof.Machine
end

