-- ==== Sys2Proof/Certificates/Slice0/Obligations.lean ====
section
/-! DEFINITION. The statements for the provers. Each docstring names the rule of spec/ it formalises. A
premise `s.Inv` stands only where a statement could fail in states no run reaches; that it holds at reset
and is kept by every step are statements of their own. -/

open Sys2Proof Sys2Proof.Machine

/-! ## Reset and the invariant -/

/-- The reset table (10_state.md section 8): STATUS.CODE is NONE and the five registers 0, CMD stores nothing (it reads 0),
no byte of SRC, DST or BIT has been written, and each reads as its own unspecified value. That an unwritten
byte is one absent from the list (log 14) and reads as a free value with no body (log 3) is the model's form
of the table's "any value", so this is derived; that it stays until written is
`BytesChangeOnlyByTheirOwnCause`. -/
def Obligations.ResetStateAsTheTableSays : Prop :=
  State.reset.code = .none ∧ State.reset.nbits = 0 ∧ State.reset.buflen = 0 ∧
  State.reset.bitlen = 0 ∧ State.reset.length = 0 ∧ State.reset.outlen = 0 ∧
  State.reset.readReg .cmd = 0 ∧ State.reset.readReg .status = 0 ∧
  ∀ b : Bank, State.reset.bank b = [] ∧
    ∀ i, State.reset.byte b i = Config.resetByte State.reset.epoch b i

/-- What the spec derives of the first commands (70_reset_and_hazards.md section 1; vectors Z1, Z2): a HIDE
right after reset succeeds and writes no sample, a REVEAL succeeds with OUTLEN = 0. Derived, since the
spec marks it as its inference. -/
def Obligations.FirstCommandsAfterResetSucceed : Prop :=
  State.reset.width = 1 ∧ State.reset.bufferLen = 0 ∧ State.reset.bitCount = 0 ∧
  exec .hide State.reset = .next { State.reset with code := .ok } ∧
  exec .reveal State.reset = .next { State.reset with code := .ok, outlen := 0 }

/-- A platform reset puts every register at its reset value and every byte at the free value of a new
draw, and leaves the host's script and readings and the parameter alone. The redraw is the model's
reading of "Reset does not clear the memories" (log 4), so this is derived. -/
def Obligations.PlatformResetLeavesOnlyFreeContents : Prop :=
  ∀ (s : State) (rest : List Move), s.script = .platformReset :: rest →
    ∃ t, step s = .next t ∧ t.code = .none ∧ t.nbits = 0 ∧ t.buflen = 0 ∧ t.bitlen = 0 ∧
      t.length = 0 ∧ t.outlen = 0 ∧ t.script = rest ∧ t.readings = s.readings ∧ t.cap = s.cap ∧
      ∀ b i, t.byte b i = Config.resetByte (s.epoch + 1) b i

/-- The invariant holds at reset, whatever SAMPLE_CAP is. -/
def Obligations.ResetStateIsWellFormed : Prop := State.reset.Inv

/-- Every step that goes on keeps the invariant: SAMPLE_CAP in its range (R6), every memory canonical with
no index at or above SAMPLE_CAP (R50), OUTLEN at most 8 * SAMPLE_CAP (R25). -/
def Obligations.EveryStepKeepsWellFormedness : Prop :=
  ∀ s t : State, s.Inv → step s = .next t → t.Inv

/-! ## Decoding and the step -/

/-- Words written out from the spec: the two commands bit by bit (R80, R81), and the illegal words of
vectors T2 and T3. -/
def Obligations.WordsOfTheVectorsDecode : Prop :=
  decode 0b00000000000000000000000000000001#32 = .ok .hide ∧
  decode 0b00000000000000000000000000000010#32 = .ok .reveal ∧
  decode 0x00000000#32 = .error .noSuchOpcode ∧ decode 0x00000003#32 = .error .noSuchOpcode ∧
  decode 0x0000000F#32 = .error .noSuchOpcode ∧ decode 0x00000011#32 = .error .zeroFieldSet ∧
  decode 0x00000012#32 = .error .zeroFieldSet ∧ decode 0x80000001#32 = .error .zeroFieldSet ∧
  decode 0xFFFFFFFF#32 = .error .noSuchOpcode

/-- Decoding by fields (R80, R81): a word is a command exactly when its ZERO field is 0 and its OP is the
command's; so one word selects HIDE, one selects REVEAL, and every other word is illegal. -/
def Obligations.OneWordPerCommand : Prop :=
  ∀ w : Word,
    (∀ i, decode w = .ok i ↔ w.zeroField = 0 ∧ w.opField = opcodeOf i) ∧
    (decode w = .ok .hide ↔ w = 0x00000001#32) ∧ (decode w = .ok .reveal ↔ w = 0x00000002#32) ∧
    ((∃ e, decode w = .error e) ↔ w ≠ 0x00000001#32 ∧ w ≠ 0x00000002#32)

/-- Decode and encode agree in both directions. -/
def Obligations.DecodeAndEncodeAgree : Prop :=
  (∀ i : Instr, decode (encode i) = .ok i) ∧ ∀ (w : Word) (i : Instr), decode w = .ok i → encode i = w

/-- A step runs the decoded command: when the host's next move writes to CMD a word that decodes to `i`,
the step is `exec i` on the state with that move taken off the script. A step with no move changes
nothing, and `withFetchWord` places the table's word as the next move. -/
def Obligations.StepRunsTheDecodedCommand : Prop :=
  (∀ (s : State) (w : Word) (i : Instr) (rest : List Move),
    s.script = commandWrite w :: rest → decode w = .ok i → step s = exec i (s.withScript rest)) ∧
  (∀ s : State, s.script = [] → step s = .next s) ∧
  (∀ (s : State) (w : Word) (i : Instr), decode w = .ok i →
    step (s.withFetchWord 32 w.toNat) = exec i s)

/-- CMD has no storage (R30): a write decodes the word and executes the command it names to completion, or
sets ILLEGAL, and STATUS.CODE is set either way; a read returns 0 and has no effect but the host's own
record of it. -/
def Obligations.CmdRegisterTriggersAndReadsZero : Prop :=
  ∀ (s : State) (w : Word) (rest : List Move),
    (s.script = .memWrite .reg 0 4 w.toNat :: rest →
      (∀ i, decode w = .ok i → step s = exec i (s.withScript rest)) ∧
      (∀ e, decode w = .error e → step s = .next { s.withScript rest with code := .illegal }) ∧
      ∃ t, step s = .next t ∧ t.code ≠ .none) ∧
    (s.script = .memRead .reg 0 4 :: rest → step s = .next ((s.withScript rest).record 0))

/-- An illegal word (R83, R162): every word but 0x00000001 and 0x00000002 sets STATUS.CODE to ILLEGAL (3)
and changes nothing else. -/
def Obligations.IllegalWordSetsIllegalOnly : Prop :=
  ∀ (s : State) (w : Word) (rest : List Move),
    s.script = commandWrite w :: rest → w ≠ 0x00000001#32 → w ≠ 0x00000002#32 →
    ∃ t, step s = .next t ∧ t = { s.withScript rest with code := .illegal } ∧ t.readReg .status = 3

/-- Every CMD write completes, for every word, every register value and every memory content (R212); it
leaves STATUS.CODE at 1, 2 or 3 (R29), and touches neither the host's remaining moves nor its record. -/
def Obligations.EveryCommandWriteCompletes : Prop :=
  ∀ (s : State) (w : Word) (rest : List Move), s.script = commandWrite w :: rest →
    ∃ t, step s = .next t ∧ t.code ≠ .none ∧ t.script = rest ∧ t.readings = s.readings ∧ t.cap = s.cap

/-- The order of the checks (R166): not a command, then B > SAMPLE_CAP, then for HIDE m > B * n; otherwise
the command reports OK. -/
def Obligations.ChecksFireInOrder : Prop :=
  ∀ (s : State) (w : Word) (rest : List Move), s.script = commandWrite w :: rest →
    ∃ t, step s = .next t ∧
      t.code =
        if w ≠ 0x00000001#32 ∧ w ≠ 0x00000002#32 then .illegal
        else if s.cap < s.bufferLen then .illegal
        else if w = 0x00000001#32 ∧ s.bufferLen * s.width < s.bitCount then .capacity
        else .ok

/-- Errors are precise (R168): a CMD write that ends with CAPACITY or ILLEGAL has written nothing but
STATUS.CODE. -/
def Obligations.FailedCommandsWriteOnlyStatus : Prop :=
  ∀ (s t : State) (w : Word) (rest : List Move),
    s.script = commandWrite w :: rest → step s = .next t → t.code = .capacity ∨ t.code = .illegal →
    t = { s.withScript rest with code := t.code }

/-- An error needs no acknowledgement (R169): whatever STATUS.CODE held before, the next CMD write gives the
same outcome and overwrites it. -/
def Obligations.NextCommandIgnoresOldStatus : Prop :=
  ∀ (s : State) (c : StatusCode) (w : Word) (rest : List Move), s.script = commandWrite w :: rest →
    ∃ t, step s = .next t ∧ step { s with code := c } = .next t

/-- The unit never writes SRC (R67): after any CMD write every sample of SRC is as before. -/
def Obligations.CommandsNeverWriteSrc : Prop :=
  ∀ (s t : State) (w : Word) (rest : List Move),
    s.script = commandWrite w :: rest → step s = .next t → ∀ i, t.byte .src i = s.byte .src i

/-! ## Registers, host transactions, the bit memory -/

/-- The clamp, and the effective width (R11): NBITS read as a signed value and clamped to 1 to 8; every
negative value acts as 1, every value above 8 as 8. -/
def Obligations.WidthIsClampedNbits : Prop :=
  (∀ v lo hi : Int, (v < lo → clamp v lo hi = lo) ∧ (lo ≤ v → hi < v → clamp v lo hi = hi) ∧
    (lo ≤ v → v ≤ hi → clamp v lo hi = v)) ∧
  ∀ s : State, (s.width : Int) = max 1 (min 8 s.nbits.toInt) ∧
    (s.nbits.toInt < 1 → s.width = 1) ∧ (8 < s.nbits.toInt → s.width = 8)

/-- `ceil_div(a, n)` is the least integer at or above a / n, of either sign (R12). -/
def Obligations.CeilDivIsTheLeastCeiling : Prop :=
  ∀ (a : Int) (n : Nat), 1 ≤ n →
    a ≤ ceilDiv a n * n ∧ (∀ c : Int, a ≤ c * n → ceilDiv a n ≤ c) ∧
    (a ≤ 0 → ceilDiv a n ≤ 0) ∧ (1 ≤ a → 1 ≤ ceilDiv a n)

/-- `fmod(a, b)` is the floor-style modulo (00_scope.md section 4.1): congruent to a, zero or with the sign of
b, smaller than b. The last clause, `fmod(a, -n) = -fmod(-a, n)`, is what the spec marks as its own
inference there, so this is derived. -/
def Obligations.FmodTakesTheSignOfTheDivisor : Prop :=
  ∀ (a b : Int), b ≠ 0 →
    (∃ q : Int, a = b * q + fmod a b) ∧
    (0 < b → 0 ≤ fmod a b ∧ fmod a b < b) ∧ (b < 0 → b < fmod a b ∧ fmod a b ≤ 0) ∧
    fmod a (-b) = -fmod (-a) b

/-- STATUS (R29): CODE stands in bits 1:0 with the values 0 to 3, bits 31:2 read as 0, a host write is
ignored, every CMD write leaves CODE at 1, 2 or 3, and it reads 0 after reset. Once it is not 0 no step
brings it back to 0 but a reset, so it is never 0 after the first CMD write. -/
def Obligations.StatusRegisterLayout : Prop :=
  State.reset.readReg .status = 0 ∧
  ∀ s : State,
    (s.readReg .status).extractLsb' 2 30 = 0 ∧
    (s.readReg .status).extractLsb' 0 2 =
      (match s.code with | .none => 0#2 | .ok => 1#2 | .capacity => 2#2 | .illegal => 3#2) ∧
    (∀ (v : Nat) (rest : List Move), v < 2 ^ 32 → s.script = .memWrite .reg 1 4 v :: rest →
      step s = .next (s.withScript rest)) ∧
    (∀ (w : Word) (rest : List Move), s.script = commandWrite w :: rest →
      ∃ t, step s = .next t ∧ (t.readReg .status = 1 ∨ t.readReg .status = 2 ∨ t.readReg .status = 3)) ∧
    (∀ t, s.code ≠ .none → s.script.head? ≠ some .platformReset → step s = .next t → t.code ≠ .none)

/-- Host reads (20_memory.md section 4): a register word or a byte of a memory is returned, and nothing
changes but the host's own record. -/
def Obligations.HostReadsHaveNoSideEffect : Prop :=
  ∀ (s : State) (rest : List Move),
    (∀ r : RegName, s.script = .memRead .reg r.number 4 :: rest →
      step s = .next ((s.withScript rest).record (s.readReg r).toNat)) ∧
    (∀ (b : Bank) (i : Nat), i < s.cap → s.script = .memRead (.mem b) i 1 :: rest →
      step s = .next ((s.withScript rest).record (s.byte b i).toNat))

/-- Host register writes (20_memory.md section 4; vectors T5 to T7): an operand register takes the word
unchanged, unclamped, and reads it back; writes to STATUS and OUTLEN are ignored; no other register and
no memory changes. -/
def Obligations.RegisterWritesStoreTheWord : Prop :=
  ∀ (s : State) (r r' : RegName) (w : Word) (rest : List Move), r ≠ .cmd →
    s.script = .memWrite .reg r.number 4 w.toNat :: rest →
    ∃ t, step s = .next t ∧ t.script = rest ∧ t.readings = s.readings ∧
      t.readReg r' = (if r' = r ∧ r ≠ .status ∧ r ≠ .outlen then w else s.readReg r') ∧
      ∀ b i, t.byte b i = s.byte b i

/-- Host byte writes (20_memory.md section 4; vector T8): the byte written reads back, every other byte of
every memory and every register is as before, and a byte written to BITB sets its eight bits of BIT. -/
def Obligations.ByteWritesStoreOneByte : Prop :=
  ∀ (s : State) (b : Bank) (i : Nat) (v : Byte) (rest : List Move), i < s.cap →
    s.script = .memWrite (.mem b) i 1 v.toNat :: rest →
    ∃ t, step s = .next t ∧ t.script = rest ∧ t.byte b i = v ∧
      (∀ b' i', (b', i') ≠ (b, i) → t.byte b' i' = s.byte b' i') ∧
      (∀ r, t.readReg r = s.readReg r) ∧
      (b = .bitb → ∀ u, u < 8 → t.bit (8 * i + u) = v.getLsbD (7 - u))

/-- The move `writeBack` is a host write of the value the latest read returned, whatever it writes to: an
operand register, CMD, a byte of a memory, or an access that is refused. The move is the model's own, made
for the COPYBACK of 30_encoding.md section 7 (log 12): derived. -/
def Obligations.WriteBackWritesTheLatestReading : Prop :=
  ∀ (s : State) (sp : Space) (addr nbytes v : Nat) (rest : List Move),
    s.script = .writeBack sp addr nbytes :: rest → s.readings.getLast? = some v →
    step s = step (s.withScript (.memWrite sp addr nbytes v :: rest))

/-- One turn of COPYBACK (30_encoding.md section 7): the read of DST[i] and the write-back to SRC[i] copy that
one sample and change no other byte and no register. It rests on the move of log 12: derived. -/
def Obligations.CopyBackCopiesOneSample : Prop :=
  ∀ (s : State) (i : Nat) (rest : List Move), i < s.cap →
    s.script = .memRead (.mem .dst) i 1 :: .writeBack (.mem .src) i 1 :: rest →
    ∃ t u, step s = .next t ∧ step t = .next u ∧ u.script = rest ∧
      u.readings = s.readings ++ [(s.byte .dst i).toNat] ∧ u.cap = s.cap ∧
      u.byte .src i = s.byte .dst i ∧
      (∀ b i', (b, i') ≠ (.src, i) → u.byte b i' = s.byte b i') ∧
      ∀ r, u.readReg r = s.readReg r

/-- The bit order and the two views of the bit memory (R51, R68): BIT index j is bit 7 - (j mod 8) of byte
j div 8, that byte is `val(BITS(8k, 8))`, and this is what a host read of BITB returns at any time. -/
def Obligations.BitMemoryIsMostSignificantFirst : Prop :=
  ∀ (s : State) (k : Nat),
    (∀ j, s.bit j = (s.byte .bitb (j / 8)).getLsbD (7 - j % 8)) ∧
    (s.byte .bitb k).toNat = val (s.bits (8 * k) 8) ∧
    (∀ u, u < 8 → s.bit (8 * k + u) = (s.byte .bitb k).getLsbD (7 - u)) ∧
    (∀ rest : List Move, k < s.cap → s.script = .memRead (.mem .bitb) k 1 :: rest →
      step s = .next ((s.withScript rest).record (val (s.bits (8 * k) 8))))

/-- An access outside the defined ranges is refused, and nothing else is (20_memory.md sections 4 and 5): a
step is refused exactly when the next move is not one of those, and goes on exactly when it is. Derived, since
beside the spec's transactions it covers the model's own choices: a step with an empty script goes on (log 1),
so does the reset move (log 4), and a write-back is refused where no value was read or the value read does
not fit (logs 5 and 12). -/
def Obligations.ExactlyUndefinedAccessesAreRefused : Prop :=
  ∀ s : State, ((∃ r, step s = .refused r) ↔ s.nextMoveWf = false) ∧
    ((∃ t, step s = .next t) ↔ s.nextMoveWf = true)

/-- Whole machine (10_state.md sections 2 and 4): STATUS and OUTLEN change only in a write to CMD or in a
reset, NBITS, BUFLEN, BITLEN and LENGTH only in a host write to that register or in a reset. -/
def Obligations.RegistersChangeOnlyByTheirOwnCause : Prop :=
  ∀ (s t : State) (mv : Move) (rest : List Move) (r : RegName),
    s.script = mv :: rest → step s = .next t → t.readReg r ≠ s.readReg r →
    mv = .platformReset ∨
    (∃ v, mv = .memWrite .reg (if r = .status ∨ r = .outlen then 0 else r.number) 4 v) ∨
    mv = .writeBack .reg (if r = .status ∨ r = .outlen then 0 else r.number) 4

/-- Whole machine (20_memory.md section 7): a byte of a memory changes only in a host write to that byte,
in a write to CMD (never a byte of SRC), or in a reset. -/
def Obligations.BytesChangeOnlyByTheirOwnCause : Prop :=
  ∀ (s t : State) (mv : Move) (rest : List Move) (b : Bank) (i : Nat),
    s.script = mv :: rest → step s = .next t → t.byte b i ≠ s.byte b i →
    mv = .platformReset ∨
    (∃ v, mv = .memWrite (.mem b) i 1 v) ∨ mv = .writeBack (.mem b) i 1 ∨
    (b ≠ .src ∧ ((∃ v, mv = .memWrite .reg 0 4 v) ∨ mv = .writeBack .reg 0 4))

/-! ## HIDE -/

/-- HIDE's result (R105, R106), and that HIDE completes: when the buffer fits the memory and the string fits
the buffer, slot i with a chunk of k characters keeps its upper bits and takes the chunk in its k lowest,
first character most significant; every slot beyond the chunks is copied. -/
def Obligations.HideScattersTheChunks : Prop :=
  ∀ s : State, s.bufferLen ≤ s.cap → s.bitCount ≤ s.bufferLen * s.width →
    ∃ t, exec .hide s = .next t ∧ t.code = .ok ∧
      (∀ i, i * s.width < s.bitCount →
        (∀ u, u < min s.width (s.bitCount - i * s.width) →
          (t.byte .dst i).getLsbD (min s.width (s.bitCount - i * s.width) - 1 - u) =
            s.bit (i * s.width + u)) ∧
        (∀ u, min s.width (s.bitCount - i * s.width) ≤ u →
          (t.byte .dst i).getLsbD u = (s.byte .src i).getLsbD u) ∧
        (t.byte .dst i).toNat =
          (s.byte .src i).toNat - low (s.byte .src i).toNat (min s.width (s.bitCount - i * s.width)) +
            val (s.bits (i * s.width) (min s.width (s.bitCount - i * s.width)))) ∧
      (∀ i, s.bitCount ≤ i * s.width → i < s.bufferLen → t.byte .dst i = s.byte .src i)

/-- HIDE's frame (R107): whatever its outcome, no register but STATUS, no byte of SRC and no bit of BIT
changes, and no byte of DST outside the B bytes a successful HIDE stores, from index 0. -/
def Obligations.HideLeavesAllElseAlone : Prop :=
  ∀ s t : State, exec .hide s = .next t →
    (∀ r, r ≠ .status → t.readReg r = s.readReg r) ∧
    t.cap = s.cap ∧ t.epoch = s.epoch ∧ t.script = s.script ∧ t.readings = s.readings ∧
    (∀ i, t.byte .src i = s.byte .src i) ∧ (∀ i, t.byte .bitb i = s.byte .bitb i) ∧
    (∀ i, (t.code = .ok → s.bufferLen ≤ i) → t.byte .dst i = s.byte .dst i)

/-- HIDE's outcomes (R102, R108): it always ends; with ILLEGAL and nothing else written when B > SAMPLE_CAP,
whatever BITLEN is; with CAPACITY and nothing else written when the string is too long; with OK otherwise. -/
def Obligations.HideHasThreeOutcomes : Prop :=
  ∀ s : State,
    (s.cap < s.bufferLen → exec .hide s = .next { s with code := .illegal }) ∧
    (s.bufferLen ≤ s.cap → s.bufferLen * s.width < s.bitCount →
      exec .hide s = .next { s with code := .capacity }) ∧
    (s.bufferLen ≤ s.cap → s.bitCount ≤ s.bufferLen * s.width →
      ∃ t, exec .hide s = .next t ∧ t.code = .ok)

/-- The capacity boundary is exact (R103; X5): with BITLEN = B * n HIDE succeeds, with BITLEN = B * n + 1 it
ends with CAPACITY and DST, like all else, is as it was. -/
def Obligations.CapacityBoundaryIsExact : Prop :=
  ∀ s : State, s.Inv → s.bufferLen ≤ s.cap →
    (∃ t, exec .hide { s with bitlen := BitVec.ofNat 32 (s.bufferLen * s.width) } = .next t ∧
      t.code = .ok) ∧
    exec .hide { s with bitlen := BitVec.ofNat 32 (s.bufferLen * s.width + 1) } =
      .next { s with bitlen := BitVec.ofNat 32 (s.bufferLen * s.width + 1), code := .capacity }

/-- The partition (R104): every chunk has 1 to n characters, all but the last have n, the last has the rest,
n or fmod(m, n) characters; the chunks in order concatenate back to the bit string, and there are none of an
empty string. -/
def Obligations.ChunksPartitionTheString : Prop :=
  ∀ s : State,
    (∀ i, i < chunkCount s.bitCount s.width →
      1 ≤ chunkLen s.bitCount s.width i ∧ chunkLen s.bitCount s.width i ≤ s.width ∧
      (i + 1 < chunkCount s.bitCount s.width → chunkLen s.bitCount s.width i = s.width) ∧
      (i + 1 = chunkCount s.bitCount s.width →
        i * s.width + chunkLen s.bitCount s.width i = s.bitCount ∧
        (chunkLen s.bitCount s.width i : Int) =
          if s.width ∣ s.bitCount then (s.width : Int) else fmod s.bitCount s.width)) ∧
    ((List.range (chunkCount s.bitCount s.width)).flatMap fun i =>
      s.bits (i * s.width) (chunkLen s.bitCount s.width i)) = s.bits 0 s.bitCount ∧
    (s.bitCount = 0 → chunkCount s.bitCount s.width = 0)

/-- Every chunk has a slot (40_hide.md section 2): when the capacity check passes there are at most B chunks.
The spec marks it as its own inference: derived. -/
def Obligations.EveryChunkHasASlot : Prop :=
  ∀ s : State, s.bitCount ≤ s.bufferLen * s.width → chunkCount s.bitCount s.width ≤ s.bufferLen

/-- Lane i of HIDE: the chunk lane while there are characters left, else the copy lane (R109). -/
def hideLane (n m i : Nat) (u : State) : State :=
  if i * n < m then hideChunkLane n m i u else hideCopyLane i u

/-- Slot independence of HIDE (R109): processing the lanes 0 .. B-1 in any order gives the same state; lane i
writes only DST[i], and what it writes there rests only on SRC[i] and the bits of chunk i. -/
def Obligations.HideIsTheSameInEveryLaneOrder : Prop :=
  (∀ (s : State) (order : List Nat), s.Inv → s.bufferLen ≤ s.cap →
    s.bitCount ≤ s.bufferLen * s.width → order.Perm (List.range s.bufferLen) →
    exec .hide s =
      .next ((order.foldl (fun u i => hideLane s.width s.bitCount i u) s).setCode .ok)) ∧
  (∀ (n m i : Nat) (u : State),
    hideLane n m i u = { u with dst := (hideLane n m i u).dst } ∧
    ∀ i', i' ≠ i → (hideLane n m i u).byte .dst i' = u.byte .dst i') ∧
  (∀ (n m i : Nat) (u v : State), u.byte .src i = v.byte .src i →
    (∀ x, i * n ≤ x → x < min (i * n + n) m → u.bit x = v.bit x) →
    (hideLane n m i u).byte .dst i = (hideLane n m i v).byte .dst i)

/-- Width one (R113): every chunk is one character, q = m, and the lowest bit of sample i becomes bit i of
the string. -/
def Obligations.HideAtWidthOne : Prop :=
  ∀ s : State, s.width = 1 → s.bufferLen ≤ s.cap → s.bitCount ≤ s.bufferLen →
    chunkCount s.bitCount s.width = s.bitCount ∧
    (∀ i, i < s.bitCount → chunkLen s.bitCount s.width i = 1) ∧
    ∃ t, exec .hide s = .next t ∧ t.code = .ok ∧ ∀ i, i < s.bitCount →
      t.byte .dst i = (s.byte .src i &&& 0xFE#8) ||| (if s.bit i then 1#8 else 0#8)

/-- Full width (40_hide.md section 3): with n = 8 and m a multiple of 8, DST[0 .. m/8-1] is BITB[0 .. m/8-1]
byte for byte. Derived in the spec. -/
def Obligations.HideAtWidthEightCopiesTheBytes : Prop :=
  ∀ s : State, s.width = 8 → s.bufferLen ≤ s.cap → s.bitCount ≤ s.bufferLen * 8 → 8 ∣ s.bitCount →
    ∃ t, exec .hide s = .next t ∧ t.code = .ok ∧
      ∀ i, i < s.bitCount / 8 → t.byte .dst i = s.byte .bitb i

/-- The empty string and the empty buffer (40_hide.md section 3): with m = 0 HIDE is a plain copy; with
B = 0 it writes nothing, and fails with CAPACITY as soon as m is 1 or more. Derived in the spec. -/
def Obligations.HideOfNothingAndIntoNothing : Prop :=
  ∀ s : State,
    (s.bitCount = 0 → s.bufferLen ≤ s.cap →
      ∃ t, exec .hide s = .next t ∧ t.code = .ok ∧
        ∀ i, t.byte .dst i = if i < s.bufferLen then s.byte .src i else s.byte .dst i) ∧
    (s.bufferLen = 0 → s.bitCount = 0 → exec .hide s = .next { s with code := .ok }) ∧
    (s.bufferLen = 0 → 1 ≤ s.bitCount → exec .hide s = .next { s with code := .capacity })

/-- Bounds of the change (40_hide.md section 3): a sample of the output differs from the cover's by at most
2^n - 1. Derived in the spec. -/
def Obligations.HideChangesASampleByLessThanTwoToTheWidth : Prop :=
  ∀ s t : State, exec .hide s = .next t → t.code = .ok → ∀ i, i < s.bufferLen →
    (t.byte .dst i).toNat ≤ (s.byte .src i).toNat + (2 ^ s.width - 1) ∧
    (s.byte .src i).toNat ≤ (t.byte .dst i).toNat + (2 ^ s.width - 1)

/-- Repeatability (40_hide.md section 3): the same HIDE issued again from the resulting state leaves that
state as it is. Derived in the spec. -/
def Obligations.HideTwiceIsHideOnce : Prop :=
  ∀ s t : State, s.Inv → exec .hide s = .next t → exec .hide t = .next t

/-- What HIDE depends on: two states with the same NBITS, BUFLEN, BITLEN, SAMPLE_CAP, the same B samples of
SRC and the same m bits of BIT give the same code and, on OK, the same output buffer. Derived: 10_state.md
section 7 names the operand registers, SRC and BIT whole, and that LENGTH, the samples from B on and the
bits from m on do not matter follows from what HIDE reads (20_memory.md section 4, 40_hide.md sections 1
and 2). -/
def Obligations.HideDependsOnlyOnItsOperands : Prop :=
  ∀ s u : State, s.nbits = u.nbits → s.buflen = u.buflen → s.bitlen = u.bitlen → s.cap = u.cap →
    (∀ i, i < s.bufferLen → s.byte .src i = u.byte .src i) →
    (∀ j, j < s.bitCount → s.bit j = u.bit j) →
    ∃ t v, exec .hide s = .next t ∧ exec .hide u = .next v ∧ t.code = v.code ∧
      (t.code = .ok → ∀ i, i < s.bufferLen → t.byte .dst i = v.byte .dst i)

/-- The clamp is silent and complete (R101, R121): either command runs with any NBITS at or below 1 exactly
as with 1, and with any NBITS at or above 8 exactly as with 8, but for NBITS itself, which keeps what the
host wrote. -/
def Obligations.ClampedWidthsBehaveAlike : Prop :=
  ∀ (i : Instr) (s : State) (x : Word),
    (x.toInt ≤ 1 → ∃ t, exec i { s with nbits := 1 } = .next t ∧
      exec i { s with nbits := x } = .next { t with nbits := x }) ∧
    (8 ≤ x.toInt → ∃ t, exec i { s with nbits := 8 } = .next t ∧
      exec i { s with nbits := x } = .next { t with nbits := x })

/-! ## REVEAL -/

/-- REVEAL's result (R123 to R127), and that REVEAL completes. p0 is the ceiling of L / n, d the number of
dropped characters (0 <= d < n, n divides L + d), p the number of samples read, the whole buffer when p0 is
non-positive or exceeds it; the result has max(0, p*n - d) characters, character j being bit n-1-(j mod n)
of sample j div n; it always fits, and only the last field read can be cut. -/
def Obligations.RevealGathersTheLowBits : Prop :=
  ∀ (s : State) (p0 d : Int) (p : Nat), s.Inv → s.bufferLen ≤ s.cap →
    (p0 - 1) * s.width < s.length.toInt → s.length.toInt ≤ p0 * s.width →
    0 ≤ d → d < s.width → (s.width : Int) ∣ s.length.toInt + d →
    p = (if p0 ≤ 0 ∨ (s.bufferLen : Int) < p0 then s.bufferLen else p0.toNat) →
    p ≤ s.bufferLen ∧
    ∃ t, exec .reveal s = .next t ∧ t.code = .ok ∧
      (t.resultLen : Int) = max 0 ((p : Int) * s.width - d) ∧
      t.resultLen ≤ p * s.width ∧ p * s.width ≤ 8 * s.cap ∧ (p - 1) * s.width ≤ t.resultLen ∧
      ∀ j, j < t.resultLen →
        t.bit j = (s.byte .src (j / s.width)).getLsbD (s.width - 1 - j % s.width)

/-- REVEAL ends with ILLEGAL, writing nothing else, when B > SAMPLE_CAP, and with OK otherwise; never with
CAPACITY (R122). -/
def Obligations.RevealFailsOnlyWhenTheBufferIsTooLong : Prop :=
  ∀ s : State,
    (s.cap < s.bufferLen → exec .reveal s = .next { s with code := .illegal }) ∧
    (s.bufferLen ≤ s.cap → ∃ t, exec .reveal s = .next t ∧ t.code = .ok) ∧
    (∀ t, exec .reveal s = .next t → t.code ≠ .capacity)

/-- REVEAL's frame (R128): whatever its outcome, no register but STATUS and OUTLEN and no byte of SRC or DST
changes, OUTLEN only on success, and no bit of BIT outside the OUTLEN bits a successful REVEAL stores,
from index 0. -/
def Obligations.RevealLeavesAllElseAlone : Prop :=
  ∀ s t : State, s.Inv → exec .reveal s = .next t →
    (∀ r, r ≠ .status → r ≠ .outlen → t.readReg r = s.readReg r) ∧
    (t.code ≠ .ok → t.outlen = s.outlen) ∧
    t.cap = s.cap ∧ t.epoch = s.epoch ∧ t.script = s.script ∧ t.readings = s.readings ∧
    (∀ i, t.byte .src i = s.byte .src i) ∧ (∀ i, t.byte .dst i = s.byte .dst i) ∧
    (∀ j, (t.code = .ok → t.resultLen ≤ j) → t.bit j = s.bit j) ∧
    (∀ k, (t.code = .ok → t.resultLen ≤ 8 * k) → t.byte .bitb k = s.byte .bitb k)

/-- Partial bytes (R57): REVEAL writes exactly the bits below OUTLEN, each with the sample bit it gathers, and
does not zero-fill. When OUTLEN is no multiple of 8 the byte BITB[OUTLEN div 8] has its OUTLEN mod 8
high-order bits written with the last characters, which come from SRC, and its low-order bits left as they
were; every byte above it is untouched. -/
def Obligations.RevealDoesNotZeroFill : Prop :=
  ∀ s t : State, s.Inv → exec .reveal s = .next t → t.code = .ok →
    (∀ j, t.bit j = if j < t.resultLen
      then (s.byte .src (j / s.width)).getLsbD (s.width - 1 - j % s.width) else s.bit j) ∧
    (∀ x j, 8 - t.resultLen % 8 ≤ x → x < 8 → t.resultLen % 8 ≠ 0 →
      j = t.resultLen / 8 * 8 + (7 - x) →
      j < t.resultLen ∧
      (t.byte .bitb (t.resultLen / 8)).getLsbD x =
        (s.byte .src (j / s.width)).getLsbD (s.width - 1 - j % s.width)) ∧
    (∀ x, x < 8 - t.resultLen % 8 →
      (t.byte .bitb (t.resultLen / 8)).getLsbD x = (s.byte .bitb (t.resultLen / 8)).getLsbD x) ∧
    (∀ k, t.resultLen / 8 < k → t.byte .bitb k = s.byte .bitb k)

/-- Result lengths (41_reveal.md section 3): a reachable request gives exactly L characters; a non-positive
or unreachable one gives B*n less the residue of -L, which for an unreachable one is fewer than requested;
an empty buffer gives none. Derived in the spec. -/
def Obligations.RevealResultLengths : Prop :=
  ∀ s : State, s.Inv → s.bufferLen ≤ s.cap →
    ∃ t, exec .reveal s = .next t ∧ t.code = .ok ∧
      (1 ≤ s.length.toInt → s.length.toInt ≤ s.bufferLen * s.width →
        (t.resultLen : Int) = s.length.toInt) ∧
      (s.length.toInt ≤ 0 → (t.resultLen : Int) =
        max 0 (s.bufferLen * s.width - -s.length.toInt % s.width)) ∧
      ((s.bufferLen : Int) * s.width < s.length.toInt → (t.resultLen : Int) =
        max 0 (s.bufferLen * s.width - -s.length.toInt % s.width) ∧
        (t.resultLen : Int) < s.length.toInt) ∧
      (s.bufferLen = 0 → t = { s with outlen := 0, code := .ok }) ∧
      (1 ≤ s.bufferLen → 1 ≤ t.resultLen)

/-- Width eight and width one (41_reveal.md section 3): at n = 8 every whole byte of the result is the
sample; at n = 1 nothing is dropped, and character j is the lowest bit of sample j. Derived in the spec. -/
def Obligations.RevealAtWidthEightAndOne : Prop :=
  ∀ s : State, s.Inv → s.bufferLen ≤ s.cap →
    ∃ t, exec .reveal s = .next t ∧
      (s.width = 8 → ∀ i, 8 * i + 8 ≤ t.resultLen → t.byte .bitb i = s.byte .src i) ∧
      (s.width = 1 →
        (t.resultLen : Int) =
          (if 1 ≤ s.length.toInt ∧ s.length.toInt ≤ s.bufferLen then s.length.toInt
           else (s.bufferLen : Int)) ∧
        ∀ j, j < t.resultLen → t.bit j = (s.byte .src j).getLsbD 0)

/-- Slot independence of REVEAL (41_reveal.md section 4): processing the p lanes in any order writes the same
bits. Derived in the spec. -/
def Obligations.RevealIsTheSameInEveryLaneOrder : Prop :=
  ∀ (s : State) (order : List Nat), s.bufferLen ≤ s.cap →
    order.Perm (List.range (samplesRead s.requested s.width s.bufferLen)) →
    ∃ t, exec .reveal s = .next t ∧ t.code = .ok ∧
      ∀ j, t.bit j = (order.foldl (fun u i =>
        revealLane s.width (resultCount s.requested s.width s.bufferLen) i u) s).bit j

/-- The same REVEAL issued again from the resulting state leaves that state as it is. Derived: the writer's own
inference from 41_reveal.md section 2, by which REVEAL writes only BIT, OUTLEN and STATUS, none of which it
reads. -/
def Obligations.RevealTwiceIsRevealOnce : Prop :=
  ∀ s t : State, s.Inv → exec .reveal s = .next t → exec .reveal t = .next t

/-- What REVEAL depends on: two states with the same NBITS, BUFLEN, LENGTH, SAMPLE_CAP and the same B samples
of SRC give the same code and, on OK, the same result. Derived: 10_state.md section 7 names the operand
registers, SRC and BIT whole, and that BITLEN, BIT and the samples from B on do not matter follows from what
REVEAL reads (20_memory.md section 4, 41_reveal.md sections 1 and 2). -/
def Obligations.RevealDependsOnlyOnItsOperands : Prop :=
  ∀ s u : State, s.Inv → s.nbits = u.nbits → s.buflen = u.buflen → s.length = u.length →
    s.cap = u.cap → (∀ i, i < s.bufferLen → s.byte .src i = u.byte .src i) →
    ∃ t v, exec .reveal s = .next t ∧ exec .reveal u = .next v ∧ t.code = v.code ∧
      (t.code = .ok → t.outlen = v.outlen ∧ ∀ j, j < t.resultLen → t.bit j = v.bit j)

/-- Reading what nothing wrote (20_memory.md section 7; vector Z3), for every value the memory may hold: a
REVEAL at width 8 right after reset returns the unspecified samples 0 and 1 themselves, and is no error. -/
def Obligations.RevealOfUnwrittenSamples : Prop :=
  ∀ cap : Nat, 2 ≤ cap → ∀ s : State,
    s = { State.resetWith cap with buflen := 2, nbits := 8 } →
    ∃ t, exec .reveal s = .next t ∧ t.code = .ok ∧ t.resultLen = 16 ∧
      t.byte .bitb 0 = Config.resetByte s.epoch .src 0 ∧
      t.byte .bitb 1 = Config.resetByte s.epoch .src 1

/-! ## HIDE then REVEAL, and the host's codec -/

/-- The round trip (41_reveal.md section 4, its three cases). A HIDE from s succeeds giving t; u is any state
whose SRC buffer is t's DST buffer, with the same NBITS, BUFLEN and SAMPLE_CAP and LENGTH = m; then a REVEAL
from u gives v. Case 1, n divides m >= 1: the string comes back exactly. Case 2, n does not divide m: the
first (m/n)*n characters do, and character x of the last k = m mod n is a cover bit or a chunk character, as
said; the string comes back exactly when those bits agree. Case 3, m = 0: the whole buffer comes back.
Derived in the spec. -/
def Obligations.RevealAfterHideReturns : Prop :=
  ∀ s t u : State, s.Inv → exec .hide s = .next t → t.code = .ok →
    u.cap = s.cap → u.nbits = s.nbits → u.buflen = s.buflen →
    (∀ i, i < s.bufferLen → u.byte .src i = t.byte .dst i) →
    u.length.toInt = s.bitCount →
    ∃ v, exec .reveal u = .next v ∧ v.code = .ok ∧
      (1 ≤ s.bitCount → s.width ∣ s.bitCount →
        v.resultLen = s.bitCount ∧ v.bits 0 v.resultLen = s.bits 0 s.bitCount) ∧
      (¬ s.width ∣ s.bitCount →
        v.resultLen = s.bitCount ∧
        v.bits 0 (s.bitCount / s.width * s.width) = s.bits 0 (s.bitCount / s.width * s.width) ∧
        (∀ x, x < s.bitCount % s.width →
          v.bit (s.bitCount / s.width * s.width + x) =
            if s.bitCount % s.width ≤ s.width - 1 - x
            then (s.byte .src (s.bitCount / s.width)).getLsbD (s.width - 1 - x)
            else s.bit (s.bitCount / s.width * s.width + (s.bitCount % s.width + x - s.width))) ∧
        (v.bits 0 s.bitCount = s.bits 0 s.bitCount ↔
          ∀ x, x < s.bitCount % s.width →
            (t.byte .dst (s.bitCount / s.width)).getLsbD (s.width - 1 - x) =
              s.bit (s.bitCount / s.width * s.width + x))) ∧
      (s.bitCount = 0 →
        v.resultLen = s.bufferLen * s.width ∧
        ∀ j, j < v.resultLen →
          v.bit j = (t.byte .dst (j / s.width)).getLsbD (s.width - 1 - j % s.width))

/-- The document's end-to-end property as it holds (45_host_binarycodec.md section 3): a message of one byte
or more, hidden and revealed at a width that divides its bit length, comes back. It rests on the codec's
UTF-8, which the document does not define (log 11): derived. -/
def Obligations.HiddenMessageComesBack : Prop :=
  ∀ (s t u : State) (msg : Message), s.Inv → msg ≠ [] →
    s.bitCount = (encodeMessage msg).length → s.bits 0 s.bitCount = encodeMessage msg →
    s.width ∣ s.bitCount →
    exec .hide s = .next t → t.code = .ok →
    u.cap = s.cap → u.nbits = s.nbits → u.buflen = s.buflen →
    (∀ i, i < s.bufferLen → u.byte .src i = t.byte .dst i) →
    u.length.toInt = s.bitCount →
    ∃ v, exec .reveal u = .next v ∧ decodeMessage (v.bits 0 v.resultLen) = msg

/-- `decode(encode(M)) = M` (45_host_binarycodec.md section 2), the encoding a multiple of 8 long, and the
document's example of a 7-character string. It rests on the codec's UTF-8 (log 11): derived. -/
def Obligations.CodecRoundTrip : Prop :=
  (∀ msg : Message, decodeMessage (encodeMessage msg) = msg ∧
    (encodeMessage msg).length = 8 * (messageBytes msg).length) ∧
  decodeMessage [] = [] ∧
  decodeMessage [false, true, false, false, true, false, false] = ['H'] ∧
  encodeMessage ['H', 'i'] = bin 8 0x48 ++ bin 8 0x69

/-- How the codec meets the bit memory (45_host_binarycodec.md section 3): the bytes written to BITB[0], BITB[1],
... are the string of those bytes; and the bytes read back, stale low-order bits of the last one cleared, are
the string of the first `len` bits. Derived in the spec. -/
def Obligations.BytesOfBitbAreTheBitString : Prop :=
  ∀ (s : State) (bytes : List Byte) (len : Nat),
    ((∀ k, k < bytes.length → bytes[k]? = some (s.byte .bitb k)) →
      s.bits 0 (8 * bytes.length) = unpackBytes bytes) ∧
    packBits (s.bits 0 len) =
      clearStaleBits len ((List.range ((len + 7) / 8)).map fun k => s.byte .bitb k)

/-- The flattening order the host relies on (20_memory.md section 7): row-major, channel-last; the samples of an
image of height h, width w and c channels have distinct indices below h * w * c, the next channel of a pixel
stands next to it, and the first channel of the next pixel follows the last of this one. -/
def Obligations.FlatteningIsRowMajorChannelLast : Prop :=
  ∀ h w c y x ch : Nat, y < h → x < w → ch < c →
    flatIndex w c y x ch < h * w * c ∧
    (∀ y' x' ch', x' < w → ch' < c → flatIndex w c y x ch = flatIndex w c y' x' ch' →
      y = y' ∧ x = x' ∧ ch = ch') ∧
    flatIndex w c y x (ch + 1) = flatIndex w c y x ch + 1 ∧
    flatIndex w c y (x + 1) 0 = flatIndex w c y x (c - 1) + 1
end

