-- ==== Sys2Proof/Laws/Arith.lean ====
section
/-! SUPPORT. The integer arithmetic of the rules in Lean's own terms, and the bits of a value, a mask and a
rewritten sample (spec/00_scope.md R10 to R15). -/

namespace Sys2Proof.Machine

/-- `sint32` is the two's-complement reading of a word (R10). -/
theorem sint32_eq_toInt (w : Word) : sint32 w = w.toInt := by
  have := w.isLt
  unfold sint32
  rw [BitVec.toInt_eq_toNat_cond]
  split <;> split <;> omega

/-- The effective width is the signed value of NBITS, clamped (R11). -/
theorem width_eq (s : State) : (s.width : Int) = max 1 (min 8 s.nbits.toInt) := by
  unfold State.width clamp
  rw [sint32_eq_toInt]
  split
  · omega
  · split <;> omega

theorem width_pos (s : State) : 1 ≤ s.width := by have := width_eq s; omega
theorem width_le (s : State) : s.width ≤ 8 := by have := width_eq s; omega

/-- `ceil_div` through Lean's floor division, the divisor being positive (R12). -/
theorem ceilDiv_eq_neg_ediv (a : Int) (n : Nat) : ceilDiv a n = -(-a / (n : Int)) := by
  unfold ceilDiv
  rw [Int.fdiv_eq_ediv_of_nonneg _ (Int.natCast_nonneg n)]

/-- The number of chunks of an `m`-character string (R104). -/
theorem chunkCount_eq (m n : Nat) (hn : 1 ≤ n) : chunkCount m n = (m + n - 1) / n := by
  unfold chunkCount
  rw [ceilDiv_eq_neg_ediv]
  set a := (m + n - 1) / n with ha
  have h1 : n * a ≤ m + n - 1 := Nat.mul_div_le _ _
  have h2 : m + n - 1 < n * (a + 1) := Nat.lt_mul_div_succ _ (by omega)
  have : -(m : Int) / (n : Int) = -(a : Int) := by
    rw [Int.ediv_eq_iff_of_pos (by omega)]
    constructor
    · nlinarith [(by exact_mod_cast (by omega : m + n ≤ n * (a + 1)) : (m : Int) + n ≤ n * (a + 1))]
    · nlinarith [(by exact_mod_cast (by omega : n * a < m + n) : (n : Int) * a < m + n)]
  rw [this]; simp

/-- What REVEAL drops is the residue of `-L` modulo `n` (R126). -/
theorem dropCount_eq (l : Int) (n : Nat) : dropCount l n = (-l) % (n : Int) := by
  unfold dropCount fmod
  have hneg : Int.fdiv l (-(n : Int)) = (-l) / (n : Int) := by
    rw [← Int.neg_fdiv_neg, neg_neg, Int.fdiv_eq_ediv_of_nonneg _ (Int.natCast_nonneg n)]
  rw [hneg, Int.emod_def]
  ring

theorem dropCount_nonneg (l : Int) (n : Nat) (hn : 1 ≤ n) : 0 ≤ dropCount l n := by
  rw [dropCount_eq]; exact Int.emod_nonneg _ (by omega)

theorem dropCount_lt (l : Int) (n : Nat) (hn : 1 ≤ n) : dropCount l n < n := by
  rw [dropCount_eq]; exact Int.emod_lt_of_pos _ (by omega)

/-- REVEAL never reads past the buffer (R124). -/
theorem samplesRead_le (l : Int) (n b : Nat) : samplesRead l n b ≤ b := by
  simp only [samplesRead]
  split
  · exact Nat.le_refl b
  · omega

/-- REVEAL's result is no longer than what it gathered (R127). -/
theorem resultCount_le (l : Int) (n b : Nat) (hn : 1 ≤ n) :
    resultCount l n b ≤ samplesRead l n b * n := by
  have hd := dropCount_nonneg l n hn
  have hp : 0 ≤ (samplesRead l n b : Int) * n := by positivity
  unfold resultCount
  push_cast [← Int.ofNat_le]
  omega

/-- The value of a string with one more character on the right (R15). -/
@[simp] theorem val_append_one (s : BitString) (b : Bool) : val (s ++ [b]) = 2 * val s + b.toNat := by
  simp [val, List.foldl_append]

theorem val_lt (s : BitString) : val s < 2 ^ s.length := by
  induction s using List.reverseRecOn with
  | nil => simp [val]
  | append_singleton s b ih =>
    rw [val_append_one, List.length_append, List.length_singleton, Nat.pow_succ]
    have := Bool.toNat_le b
    omega

/-- Bit `i` of the value of a string is its character `i` from the right (R15). -/
theorem testBit_val (s : BitString) (i : Nat) :
    (val s).testBit i = (s.reverse[i]?).getD false := by
  induction s using List.reverseRecOn generalizing i with
  | nil => simp [val]
  | append_singleton s b ih =>
    rw [val_append_one, List.reverse_append]
    cases i with
    | zero => cases b <;> simp [Nat.testBit_zero]
    | succ i =>
      rw [Nat.testBit_succ, show (2 * val s + b.toNat) / 2 = val s by
        have := Bool.toNat_le b; omega, ih]
      simp

@[simp] theorem bits_length (s : State) (a k : Nat) : (s.bits a k).length = k := by
  simp [State.bits]

theorem bits_getElem? (s : State) (a k t : Nat) (h : t < k) : (s.bits a k)[t]? = some (s.bit (a + t)) := by
  simp [State.bits, h]

/-- Bit `i` of the value of `BITS(a, k)` is BIT index `a + k - 1 - i` (R15, R105). -/
theorem testBit_val_bits (s : State) (a k i : Nat) :
    (val (s.bits a k)).testBit i = if i < k then s.bit (a + (k - 1 - i)) else false := by
  rw [testBit_val]
  split
  case isTrue h =>
    rw [List.getElem?_reverse (by simpa using h), bits_length, bits_getElem? _ _ _ _ (by omega)]
    rfl
  case isFalse h =>
    rw [List.getElem?_eq_none (by simpa using h)]
    rfl

/-- The bits of a mask of `k` ones (R14). -/
theorem getLsbD_mask (k b : Nat) (hk : k ≤ 8) : (mask k).getLsbD b = decide (b < k) := by
  unfold mask
  rw [BitVec.getLsbD_ofNat, Nat.testBit_two_pow_sub_one]
  by_cases h : b < k
  · simp [h, show b < 8 by omega]
  · simp [h]

/-- The bits of a sample whose `k` low-order bits are replaced by the value `c` (R105). -/
theorem getLsbD_replaceLow (v : Byte) (k c b : Nat) (hk : k ≤ 8) (hc : c < 2 ^ k) :
    (replaceLow v k c).getLsbD b = if b < k then c.testBit b else v.getLsbD b := by
  unfold replaceLow
  rw [BitVec.getLsbD_or, BitVec.getLsbD_and, BitVec.getLsbD_not, getLsbD_mask _ _ hk,
    BitVec.getLsbD_ofNat]
  by_cases h : b < k
  · simp [h, show b < 8 by omega]
  · have : c.testBit b = false :=
      Nat.testBit_lt_two_pow (Nat.lt_of_lt_of_le hc (Nat.pow_le_pow_right (by omega) (by omega)))
    by_cases hb : b < 8
    · simp [h, hb, this]
    · simp [h, hb, this, BitVec.getLsbD_of_ge _ _ (Nat.not_lt.mp hb)]

end Sys2Proof.Machine
end

