-- ==== Sys2Proof/Laws/Loop.lean ====
section
/-! SUPPORT. The loop of the pseudocode. -/

namespace Sys2Proof.Machine

variable {σ : Type}

@[simp] theorem forRange_zero (lo : Nat) (body : Nat → σ → σ) (s : σ) :
    forRange lo 0 body s = s := rfl

theorem forRange_succ (lo k : Nat) (body : Nat → σ → σ) (s : σ) :
    forRange lo (k + 1) body s = body (lo + k) (forRange lo k body s) := rfl

/-- Induction over a loop: what holds before it and is carried by each round holds after it. -/
theorem forRange_induct {P : Nat → σ → Prop} (lo count : Nat) (body : Nat → σ → σ) (s : σ)
    (h0 : P 0 s) (hs : ∀ k u, k < count → P k u → P (k + 1) (body (lo + k) u)) :
    P count (forRange lo count body s) := by
  induction count with
  | zero => exact h0
  | succ c ih =>
    exact hs c _ (Nat.lt_succ_self c) (ih fun k u hk => hs k u (Nat.lt_succ_of_lt hk))

/-- A loop keeps what every round keeps. -/
theorem forRange_keeps {P : σ → Prop} (lo count : Nat) (body : Nat → σ → σ) (s : σ) (h0 : P s)
    (hs : ∀ i u, lo ≤ i → i < lo + count → P u → P (body i u)) : P (forRange lo count body s) :=
  forRange_induct (P := fun _ u => P u) lo count body s h0 fun k u hk hu =>
    hs (lo + k) u (Nat.le_add_right lo k) (Nat.add_lt_add_left hk lo) hu

/-- A projection that every round leaves alone, the loop leaves alone. -/
theorem forRange_same {α : Type} (f : σ → α) (lo count : Nat) (body : Nat → σ → σ) (s : σ)
    (hs : ∀ i u, f (body i u) = f u) : f (forRange lo count body s) = f s :=
  forRange_keeps (P := fun u => f u = f s) lo count body s rfl fun i u _ _ hu => (hs i u).trans hu

end Sys2Proof.Machine
end

