-- ==== Sys2Proof/Laws/State.lean ====
section
/-! SUPPORT. One lemma per field per update of State, true by rfl, so that no later proof unfolds a
record update. -/

namespace Sys2Proof.Machine

variable (s : State)

@[simp] theorem setCode_nbits (c : StatusCode) : (s.setCode c).nbits = s.nbits := rfl
@[simp] theorem setCode_buflen (c : StatusCode) : (s.setCode c).buflen = s.buflen := rfl
@[simp] theorem setCode_bitlen (c : StatusCode) : (s.setCode c).bitlen = s.bitlen := rfl
@[simp] theorem setCode_length (c : StatusCode) : (s.setCode c).length = s.length := rfl
@[simp] theorem setCode_outlen (c : StatusCode) : (s.setCode c).outlen = s.outlen := rfl
@[simp] theorem setCode_code (c : StatusCode) : (s.setCode c).code = c := rfl
@[simp] theorem setCode_src (c : StatusCode) : (s.setCode c).src = s.src := rfl
@[simp] theorem setCode_dst (c : StatusCode) : (s.setCode c).dst = s.dst := rfl
@[simp] theorem setCode_bitb (c : StatusCode) : (s.setCode c).bitb = s.bitb := rfl
@[simp] theorem setCode_cap (c : StatusCode) : (s.setCode c).cap = s.cap := rfl
@[simp] theorem setCode_epoch (c : StatusCode) : (s.setCode c).epoch = s.epoch := rfl
@[simp] theorem setCode_script (c : StatusCode) : (s.setCode c).script = s.script := rfl
@[simp] theorem setCode_readings (c : StatusCode) : (s.setCode c).readings = s.readings := rfl

@[simp] theorem setOutlen_nbits (v : Nat) : (s.setOutlen v).nbits = s.nbits := rfl
@[simp] theorem setOutlen_buflen (v : Nat) : (s.setOutlen v).buflen = s.buflen := rfl
@[simp] theorem setOutlen_bitlen (v : Nat) : (s.setOutlen v).bitlen = s.bitlen := rfl
@[simp] theorem setOutlen_length (v : Nat) : (s.setOutlen v).length = s.length := rfl
@[simp] theorem setOutlen_outlen (v : Nat) : (s.setOutlen v).outlen = BitVec.ofNat 32 v := rfl
@[simp] theorem setOutlen_code (v : Nat) : (s.setOutlen v).code = s.code := rfl
@[simp] theorem setOutlen_src (v : Nat) : (s.setOutlen v).src = s.src := rfl
@[simp] theorem setOutlen_dst (v : Nat) : (s.setOutlen v).dst = s.dst := rfl
@[simp] theorem setOutlen_bitb (v : Nat) : (s.setOutlen v).bitb = s.bitb := rfl
@[simp] theorem setOutlen_cap (v : Nat) : (s.setOutlen v).cap = s.cap := rfl
@[simp] theorem setOutlen_epoch (v : Nat) : (s.setOutlen v).epoch = s.epoch := rfl
@[simp] theorem setOutlen_script (v : Nat) : (s.setOutlen v).script = s.script := rfl
@[simp] theorem setOutlen_readings (v : Nat) : (s.setOutlen v).readings = s.readings := rfl

/-- Ending a command with an error is a write of STATUS.CODE and nothing else (R167). -/
@[simp] theorem raise_eq_setCode (c : StatusCode) : s.raise c = s.setCode c := rfl

@[simp] theorem setByte_nbits (b i v) : (s.setByte b i v).nbits = s.nbits := by cases b <;> rfl
@[simp] theorem setByte_buflen (b i v) : (s.setByte b i v).buflen = s.buflen := by cases b <;> rfl
@[simp] theorem setByte_bitlen (b i v) : (s.setByte b i v).bitlen = s.bitlen := by cases b <;> rfl
@[simp] theorem setByte_length (b i v) : (s.setByte b i v).length = s.length := by cases b <;> rfl
@[simp] theorem setByte_outlen (b i v) : (s.setByte b i v).outlen = s.outlen := by cases b <;> rfl
@[simp] theorem setByte_code (b i v) : (s.setByte b i v).code = s.code := by cases b <;> rfl
@[simp] theorem setByte_cap (b i v) : (s.setByte b i v).cap = s.cap := by cases b <;> rfl
@[simp] theorem setByte_epoch (b i v) : (s.setByte b i v).epoch = s.epoch := by cases b <;> rfl
@[simp] theorem setByte_script (b i v) : (s.setByte b i v).script = s.script := by cases b <;> rfl
@[simp] theorem setByte_readings (b i v) : (s.setByte b i v).readings = s.readings := by
  cases b <;> rfl
@[simp] theorem setByte_dst_src (i v) : (s.setByte .dst i v).src = s.src := rfl
@[simp] theorem setByte_dst_dst (i v) : (s.setByte .dst i v).dst = s.dst.set i v := rfl
@[simp] theorem setByte_dst_bitb (i v) : (s.setByte .dst i v).bitb = s.bitb := rfl
@[simp] theorem setByte_bitb_src (i v) : (s.setByte .bitb i v).src = s.src := rfl
@[simp] theorem setByte_bitb_dst (i v) : (s.setByte .bitb i v).dst = s.dst := rfl
@[simp] theorem setByte_bitb_bitb (i v) : (s.setByte .bitb i v).bitb = s.bitb.set i v := rfl
@[simp] theorem setByte_src_src (i v) : (s.setByte .src i v).src = s.src.set i v := rfl
@[simp] theorem setByte_src_dst (i v) : (s.setByte .src i v).dst = s.dst := rfl
@[simp] theorem setByte_src_bitb (i v) : (s.setByte .src i v).bitb = s.bitb := rfl

@[simp] theorem setBit_src (j v) : (s.setBit j v).src = s.src := rfl
@[simp] theorem setBit_dst (j v) : (s.setBit j v).dst = s.dst := rfl
@[simp] theorem setBit_nbits (j v) : (s.setBit j v).nbits = s.nbits := rfl
@[simp] theorem setBit_buflen (j v) : (s.setBit j v).buflen = s.buflen := rfl
@[simp] theorem setBit_bitlen (j v) : (s.setBit j v).bitlen = s.bitlen := rfl
@[simp] theorem setBit_length (j v) : (s.setBit j v).length = s.length := rfl
@[simp] theorem setBit_outlen (j v) : (s.setBit j v).outlen = s.outlen := rfl
@[simp] theorem setBit_code (j v) : (s.setBit j v).code = s.code := rfl
@[simp] theorem setBit_cap (j v) : (s.setBit j v).cap = s.cap := rfl
@[simp] theorem setBit_epoch (j v) : (s.setBit j v).epoch = s.epoch := rfl
@[simp] theorem setBit_script (j v) : (s.setBit j v).script = s.script := rfl
@[simp] theorem setBit_readings (j v) : (s.setBit j v).readings = s.readings := rfl

@[simp] theorem record_script (v : Nat) : (s.record v).script = s.script := rfl
@[simp] theorem record_readings (v : Nat) : (s.record v).readings = s.readings ++ [v] := rfl
@[simp] theorem record_code (v : Nat) : (s.record v).code = s.code := rfl
@[simp] theorem record_cap (v : Nat) : (s.record v).cap = s.cap := rfl
@[simp] theorem record_bank (v : Nat) (b : Bank) : (s.record v).bank b = s.bank b := by
  cases b <;> rfl
@[simp] theorem record_readReg (v : Nat) (r : RegName) : (s.record v).readReg r = s.readReg r := by
  cases r <;> rfl
@[simp] theorem record_byte (v : Nat) (b : Bank) (i : Nat) : (s.record v).byte b i = s.byte b i := by
  cases b <;> rfl

@[simp] theorem withScript_script (ms : List Move) : (s.withScript ms).script = ms := rfl
@[simp] theorem withScript_readings (ms : List Move) : (s.withScript ms).readings = s.readings := rfl
@[simp] theorem withScript_code (ms : List Move) : (s.withScript ms).code = s.code := rfl
@[simp] theorem withScript_cap (ms : List Move) : (s.withScript ms).cap = s.cap := rfl
@[simp] theorem withScript_bank (ms : List Move) (b : Bank) : (s.withScript ms).bank b = s.bank b := by
  cases b <;> rfl
@[simp] theorem withScript_byte (ms : List Move) (b : Bank) (i : Nat) :
    (s.withScript ms).byte b i = s.byte b i := by cases b <;> rfl
@[simp] theorem withScript_readReg (ms : List Move) (r : RegName) :
    (s.withScript ms).readReg r = s.readReg r := by cases r <;> rfl
/-- A move put at the front of the script and taken off again leaves the state as it was. -/
@[simp] theorem withScript_withScript_self (ms : List Move) :
    (s.withScript ms).withScript s.script = s := rfl

@[simp] theorem setCode_byte (c : StatusCode) (b : Bank) (i : Nat) :
    (s.setCode c).byte b i = s.byte b i := by cases b <;> rfl
@[simp] theorem setOutlen_byte (v : Nat) (b : Bank) (i : Nat) :
    (s.setOutlen v).byte b i = s.byte b i := by cases b <;> rfl
@[simp] theorem setCode_bit (c : StatusCode) (j : Nat) : (s.setCode c).bit j = s.bit j := rfl
@[simp] theorem setOutlen_bit (v : Nat) (j : Nat) : (s.setOutlen v).bit j = s.bit j := rfl

@[simp] theorem writeReg_script (r w) : (s.writeReg r w).script = s.script := by cases r <;> rfl
@[simp] theorem writeReg_readings (r w) : (s.writeReg r w).readings = s.readings := by cases r <;> rfl
@[simp] theorem writeReg_code (r w) : (s.writeReg r w).code = s.code := by cases r <;> rfl
@[simp] theorem writeReg_outlen (r w) : (s.writeReg r w).outlen = s.outlen := by cases r <;> rfl
@[simp] theorem writeReg_cap (r w) : (s.writeReg r w).cap = s.cap := by cases r <;> rfl
@[simp] theorem writeReg_bank (r w b) : (s.writeReg r w).bank b = s.bank b := by
  cases r <;> cases b <;> rfl
@[simp] theorem writeReg_byte (r w b i) : (s.writeReg r w).byte b i = s.byte b i := by
  cases r <;> cases b <;> rfl

@[simp] theorem platformReset_cap : s.platformReset.cap = s.cap := rfl
@[simp] theorem platformReset_code : s.platformReset.code = .none := rfl
@[simp] theorem platformReset_outlen : s.platformReset.outlen = 0 := rfl
@[simp] theorem platformReset_bank (b : Bank) : s.platformReset.bank b = [] := by cases b <;> rfl
@[simp] theorem platformReset_script : s.platformReset.script = s.script := rfl
@[simp] theorem platformReset_readings : s.platformReset.readings = s.readings := rfl
@[simp] theorem platformReset_byte (b : Bank) (i : Nat) :
    s.platformReset.byte b i = Config.resetByte (s.epoch + 1) b i := by cases b <;> rfl

end Sys2Proof.Machine
end

