-- ==== Sys2Proof/Laws/Memory.lean ====
section
/-! SUPPORT. A memory write keeps the canonical form, a read after a write gives the value written, and a
write leaves every other index alone (spec/20_memory.md R50, R62). -/

namespace Sys2Proof.Machine

/-- Reading one index after a write: the value written there, or what any other index held. -/
theorem get?_set (m : Memory) (i j : Nat) (v : Byte) :
    (m.set i v).get? j = if i = j then some v else m.get? j := by
  induction m with
  | nil => rfl
  | cons c rest ih =>
    obtain ⟨a, w⟩ := c
    unfold Memory.set
    split
    · simp only [Memory.get?]
    · split
      · subst i; simp only [Memory.get?]; split <;> rfl
      · simp only [Memory.get?, ih]
        split <;> split <;> simp_all

/-- The indices a write leaves listed. -/
theorem mem_set (m : Memory) (i : Nat) (v : Byte) (c : Host.Cell) (h : c ∈ m.set i v) :
    c = (i, v) ∨ c ∈ m := by
  induction m with
  | nil => exact .inl (List.mem_singleton.mp h)
  | cons d rest ih =>
    obtain ⟨a, w⟩ := d
    unfold Memory.set at h
    split at h
    · simpa using h
    · split at h
      · rcases List.mem_cons.mp h with h | h
        · exact .inl h
        · exact .inr (List.mem_cons_of_mem _ h)
      · rcases List.mem_cons.mp h with h | h
        · exact .inr (h ▸ List.mem_cons_self)
        · exact (ih h).imp_right (List.mem_cons_of_mem _)

/-- Canonical form of a nonempty memory: its first index lies below all others. -/
theorem wf_cons (a : Nat) (w : Byte) (rest : Memory) :
    Memory.wf ((a, w) :: rest) ↔ (∀ c ∈ rest, a < c.1) ∧ Memory.wf rest := by
  simp [Memory.wf, List.pairwise_cons]

/-- A write keeps the canonical form. -/
theorem wf_set (m : Memory) (i : Nat) (v : Byte) (h : m.wf) : (m.set i v).wf := by
  induction m with
  | nil => rfl
  | cons c rest ih =>
    obtain ⟨a, w⟩ := c
    obtain ⟨hlt, hrest⟩ := (wf_cons a w rest).mp h
    unfold Memory.set
    split
    case isTrue hi =>
      refine (wf_cons ..).mpr ⟨?_, h⟩
      intro c hc
      rcases List.mem_cons.mp hc with rfl | hc
      · exact hi
      · exact Nat.lt_trans hi (hlt c hc)
    case isFalse hi =>
      split
      case isTrue heq => subst heq; exact (wf_cons ..).mpr ⟨hlt, hrest⟩
      case isFalse hne =>
        refine (wf_cons ..).mpr ⟨?_, ih hrest⟩
        intro c hc
        rcases mem_set rest i v c hc with rfl | hc
        · show a < i; omega
        · exact hlt c hc

/-- A write at an index that exists keeps every listed index below SAMPLE_CAP. -/
theorem within_set (m : Memory) (cap i : Nat) (v : Byte) (h : m.within cap) (hi : i < cap) :
    (m.set i v).within cap := by
  simp only [Memory.within, List.all_eq_true, decide_eq_true_eq] at *
  intro c hc
  rcases mem_set m i v c hc with rfl | hc
  · exact hi
  · exact h c hc

/-- Writing the byte an index already lists changes nothing. -/
theorem set_same (m : Memory) (i : Nat) (v : Byte) (h : m.wf) (hv : m.get? i = some v) :
    m.set i v = m := by
  induction m with
  | nil => simp [Memory.get?] at hv
  | cons c rest ih =>
    obtain ⟨a, w⟩ := c
    obtain ⟨hlt, hrest⟩ := (wf_cons a w rest).mp h
    unfold Memory.get? at hv
    split at hv
    case isTrue heq =>
      subst heq
      obtain rfl := Option.some.inj hv
      simp [Memory.set]
    case isFalse hne =>
      have hmem : ∃ c ∈ rest, c.1 = i := by
        clear ih hrest hlt h
        induction rest with
        | nil => simp [Memory.get?] at hv
        | cons d ds ih =>
          unfold Memory.get? at hv
          split at hv
          · exact ⟨d, List.mem_cons_self, by assumption⟩
          · obtain ⟨c, hc, hci⟩ := ih hv
            exact ⟨c, List.mem_cons_of_mem _ hc, hci⟩
      obtain ⟨c, hc, rfl⟩ := hmem
      have : a < c.1 := hlt c hc
      unfold Memory.set
      rw [if_neg (by omega), if_neg (by omega), ih hrest hv]

/-- Two memories in canonical form that read alike at every index are the same data. -/
theorem ext_of_get? (m m' : Memory) (h : m.wf) (h' : m'.wf) (hget : ∀ i, m.get? i = m'.get? i) :
    m = m' := by
  have head_none : ∀ (a : Nat) (rest : Memory), (∀ c ∈ rest, a < c.1) → rest.get? a = none := by
    intro a rest hr
    induction rest with
    | nil => rfl
    | cons d ds ih =>
      obtain ⟨b, u⟩ := d
      have hb : a < b := hr (b, u) List.mem_cons_self
      unfold Memory.get?
      rw [if_neg (by omega)]
      exact ih fun c hc => hr c (List.mem_cons_of_mem _ hc)
  have below_none : ∀ (a b : Nat) (u : Byte) (rest : Memory), a < b → (∀ c ∈ rest, b < c.1) →
      Memory.get? ((b, u) :: rest) a = none := by
    intro a b u rest hab hr
    apply head_none
    intro c hc
    rcases List.mem_cons.mp hc with rfl | hc
    · exact hab
    · exact Nat.lt_trans hab (hr c hc)
  induction m generalizing m' with
  | nil =>
    cases m' with
    | nil => rfl
    | cons d ds =>
      have := hget d.1
      simp [Memory.get?] at this
  | cons c rest ih =>
    obtain ⟨a, w⟩ := c
    obtain ⟨hlt, hrest⟩ := (wf_cons a w rest).mp h
    cases m' with
    | nil =>
      have := hget a
      simp [Memory.get?] at this
    | cons d ds =>
      obtain ⟨b, u⟩ := d
      obtain ⟨hlt', hrest'⟩ := (wf_cons b u ds).mp h'
      have hab : a = b := by
        rcases Nat.lt_trichotomy a b with hl | he | hl
        · have := hget a
          rw [below_none a b u ds hl hlt'] at this
          simp [Memory.get?] at this
        · exact he
        · have := hget b
          rw [below_none b a w rest hl hlt] at this
          simp [Memory.get?] at this
      subst hab
      have hwu : w = u := by simpa [Memory.get?] using hget a
      subst hwu
      congr 1
      refine ih ds hrest hrest' fun i => ?_
      by_cases hi : a = i
      · subst hi
        rw [head_none a rest hlt, head_none a ds hlt']
      · simpa [Memory.get?, hi] using hget i

/-- What a byte of a memory reads as after a write of one byte (R62). -/
theorem byte_setByte (s : State) (b b' : Bank) (i j : Nat) (v : Byte) :
    (s.setByte b i v).byte b' j = if b = b' ∧ i = j then v else s.byte b' j := by
  cases b <;> cases b' <;> simp [State.byte, State.bank, State.setByte, get?_set] <;>
    by_cases h : i = j <;> simp [h]

@[simp] theorem byte_setByte_same (s : State) (b : Bank) (i : Nat) (v : Byte) :
    (s.setByte b i v).byte b i = v := by simp [byte_setByte]

@[simp] theorem byte_setBit_src (s : State) (j i : Nat) (v : Bool) :
    (s.setBit j v).byte .src i = s.byte .src i := rfl

@[simp] theorem byte_setBit_dst (s : State) (j i : Nat) (v : Bool) :
    (s.setBit j v).byte .dst i = s.byte .dst i := rfl

@[simp] theorem bit_setByte_dst (s : State) (i j : Nat) (v : Byte) :
    (s.setByte .dst i v).bit j = s.bit j := rfl

@[simp] theorem byte_setByte_dst_src (s : State) (i j : Nat) (v : Byte) :
    (s.setByte .dst i v).byte .src j = s.byte .src j := rfl

/-- The byte with only bit `p` set. -/
theorem getLsbD_onlyBit (p q : Nat) (hp : p < 8) :
    (BitVec.ofNat 8 (2 ^ p)).getLsbD q = decide (p = q) := by
  rw [BitVec.getLsbD_ofNat, Nat.testBit_two_pow]
  by_cases hq : q < 8
  · simp [hq]
  · have : p ≠ q := by omega
    simp [this]

/-- A bit of a byte after one bit of it is replaced (R16). -/
theorem getLsbD_replaceBit (v : Byte) (p q : Nat) (b : Bool) (hp : p < 8) :
    (replaceBit v p b).getLsbD q = if p = q then b else v.getLsbD q := by
  have hone := getLsbD_onlyBit p q hp
  unfold replaceBit
  generalize BitVec.ofNat 8 (2 ^ p) = m at hone
  by_cases hpq : p = q
  · subst hpq
    cases b <;> simp [BitVec.getLsbD_or, BitVec.getLsbD_and, BitVec.getLsbD_not, hone]
  · cases b
    · by_cases hq : q < 8
      · simp only [Bool.false_eq_true, if_false, BitVec.getLsbD_and, BitVec.getLsbD_not, hone, hpq, hq]
        simp
      · rw [BitVec.getLsbD_of_ge _ _ (by omega), BitVec.getLsbD_of_ge _ _ (by omega)]
        simp [hpq]
    · simp [BitVec.getLsbD_or, hone, hpq]

/-- A bit of BIT after a write of one bit: that bit, and no other (R16). -/
theorem bit_setBit (s : State) (j k : Nat) (v : Bool) :
    (s.setBit j v).bit k = if j = k then v else s.bit k := by
  unfold State.bit State.setBit
  rw [byte_setByte]
  by_cases hb : j / 8 = k / 8
  · simp only [hb, and_self, if_true]
    rw [getLsbD_replaceBit _ _ _ _ (by omega)]
    by_cases h : j = k
    · simp [h]
    · rw [if_neg (by omega), if_neg h]
  · simp only [hb, and_false, if_false]
    rw [if_neg (by rintro rfl; exact hb rfl)]

end Sys2Proof.Machine
end

