-- ==== Sys2Proof/Laws/Commands.lean ====
section
/-! SUPPORT. Everything the two commands can do, said once: their outcomes, and what their lanes write. -/

namespace Sys2Proof.Machine

/-- The outcomes of a HIDE: ILLEGAL, CAPACITY, or its lanes and OK (R108, R166). -/
theorem execHide_cases (s : State) :
    (s.cap < s.bufferLen ∧ execHide s = .next (s.setCode .illegal)) ∨
    (s.bufferLen ≤ s.cap ∧ s.bufferLen * s.width < s.bitCount ∧
      execHide s = .next (s.setCode .capacity)) ∨
    (s.bufferLen ≤ s.cap ∧ s.bitCount ≤ s.bufferLen * s.width ∧
      execHide s = .next ((hideLanes s).setCode .ok)) := by
  unfold execHide State.hideError State.bufferTooLong State.stringTooLong
  by_cases h1 : s.cap < s.bufferLen
  · exact .inl ⟨h1, by simp [h1]⟩
  · by_cases h2 : s.bufferLen * s.width < s.bitCount
    · exact .inr (.inl ⟨by omega, h2, by simp [h1, h2]⟩)
    · exact .inr (.inr ⟨by omega, by omega, by simp [h1, h2]⟩)

/-- The outcomes of a REVEAL: ILLEGAL, or its lanes, OUTLEN and OK (R120). -/
theorem execReveal_cases (s : State) :
    (s.cap < s.bufferLen ∧ execReveal s = .next (s.setCode .illegal)) ∨
    (s.bufferLen ≤ s.cap ∧ execReveal s =
      .next (((revealLanes s).setOutlen (resultCount s.requested s.width s.bufferLen)).setCode .ok)) := by
  unfold execReveal State.revealError State.bufferTooLong
  by_cases h1 : s.cap < s.bufferLen
  · exact .inl ⟨h1, by simp [h1]⟩
  · exact .inr ⟨by omega, by simp [h1]⟩

/-- What the lanes of a HIDE leave alone: all but DST. -/
theorem hideLanes_frame (s : State) : hideLanes s = { s with dst := (hideLanes s).dst } := by
  unfold hideLanes
  simp only
  refine forRange_keeps (P := fun u : State => u = { s with dst := u.dst }) _ _ _ _ ?_ ?_
  · refine forRange_keeps (P := fun u : State => u = { s with dst := u.dst }) _ _ _ _ rfl ?_
    intro i u _ _ hu
    rw [hu]; rfl
  · intro i u _ _ hu
    rw [hu]; rfl

/-- What DST reads as after the lanes of a HIDE: chunk slots rewritten, the rest of the buffer copied,
nothing else touched (R105, R106, R107). -/
theorem byte_hideLanes (s : State) (hm : s.bitCount ≤ s.bufferLen * s.width) (i : Nat) :
    (hideLanes s).byte .dst i =
      if i < chunkCount s.bitCount s.width then
        replaceLow (s.byte .src i) (chunkLen s.bitCount s.width i)
          (val (s.bits (i * s.width) (chunkLen s.bitCount s.width i)))
      else if i < s.bufferLen then s.byte .src i
      else s.byte .dst i := by
  have hq : chunkCount s.bitCount s.width ≤ s.bufferLen := by
    rw [chunkCount_eq _ _ (width_pos s)]
    have := width_pos s
    rw [Nat.div_le_iff_le_mul_add_pred (by omega)]
    calc s.bitCount + s.width - 1 ≤ s.bufferLen * s.width + (s.width - 1) := by omega
      _ = s.width * s.bufferLen + (s.width - 1) := by rw [Nat.mul_comm]
  unfold hideLanes
  simp only
  set n := s.width
  set b := s.bufferLen
  set m := s.bitCount
  set q := chunkCount m n
  set s1 := forRange 0 q (hideChunkLane n m) s with hs1
  have inner : s1.src = s.src ∧ s1.bitb = s.bitb ∧ s1.epoch = s.epoch ∧ ∀ i,
      s1.byte .dst i = if i < q then replaceLow (s.byte .src i) (chunkLen m n i)
        (val (s.bits (i * n) (chunkLen m n i))) else s.byte .dst i := by
    refine forRange_induct (P := fun k u => u.src = s.src ∧ u.bitb = s.bitb ∧ u.epoch = s.epoch ∧
      ∀ i, u.byte .dst i = if i < k then replaceLow (s.byte .src i) (chunkLen m n i)
        (val (s.bits (i * n) (chunkLen m n i))) else s.byte .dst i) 0 q _ s ?_ ?_
    · simp
    · rintro k u _ ⟨h1, h2, h3, h4⟩
      refine ⟨h1, h2, h3, fun i => ?_⟩
      have hsrc : u.byte .src k = s.byte .src k := by
        simp only [State.byte, State.bank, h1, h3]
      have hbits : ∀ a c, u.bits a c = s.bits a c := by
        intro a c; simp only [State.bits, State.bit, State.byte, State.bank, h2, h3]
      simp only [hideChunkLane, byte_setByte, hsrc, hbits, h4, true_and, Nat.zero_add]
      by_cases hik : k = i
      · subst hik; simp
      · simp only [hik, if_false]
        congr 1
        simp only [eq_iff_iff]; omega
  obtain ⟨e1, e2, e3, e4⟩ := inner
  have outer := forRange_induct (P := fun k u => u.src = s.src ∧ u.epoch = s.epoch ∧
      ∀ i, u.byte .dst i = if q ≤ i ∧ i < q + k then s.byte .src i else s1.byte .dst i)
      q (b - q) hideCopyLane s1 ⟨e1, e3, by intro i; rw [if_neg (by omega)]⟩ (by
    rintro k u _ ⟨h1, h2, h3⟩
    refine ⟨h1, h2, fun i => ?_⟩
    have hsrc : u.byte .src (q + k) = s.byte .src (q + k) := by
      simp only [State.byte, State.bank, h1, h2]
    simp only [hideCopyLane, byte_setByte, hsrc, h3, true_and]
    by_cases hik : q + k = i
    · subst hik; rw [if_pos rfl, if_pos (by omega)]
    · simp only [hik, if_false]
      congr 1
      simp only [eq_iff_iff]; omega)
  rw [outer.2.2 i, e4 i]
  by_cases h1 : i < q
  · rw [if_neg (by omega)]; simp [h1]
  · by_cases h2 : i < b
    · rw [if_pos (by omega), if_neg h1, if_pos h2]
    · rw [if_neg (by omega), if_neg h1, if_neg h1, if_neg h2]

/-- What the lanes of a REVEAL leave alone: all but the bit memory. -/
theorem revealLanes_frame (s : State) : revealLanes s = { s with bitb := (revealLanes s).bitb } := by
  unfold revealLanes
  refine forRange_keeps (P := fun u : State => u = { s with bitb := u.bitb }) _ _ _ _ rfl ?_
  intro i u _ _ hu
  unfold revealLane
  refine forRange_keeps (P := fun u : State => u = { s with bitb := u.bitb }) _ _ _ _ hu ?_
  intro t v _ _ hv
  unfold revealBit
  simp only
  split
  · rw [hv]; rfl
  · exact hv

/-- What BIT reads as after the lanes of a REVEAL: the result below `outlen`, nothing else touched
(R125, R127, R128). -/
theorem bit_revealLanes (s : State) (j : Nat) :
    (revealLanes s).bit j =
      if j < resultCount s.requested s.width s.bufferLen then
        (s.byte .src (j / s.width)).getLsbD (s.width - 1 - j % s.width)
      else s.bit j := by
  have hn := width_pos s
  have hle := resultCount_le s.requested s.width s.bufferLen hn
  unfold revealLanes
  simp only
  set n := s.width
  set o := resultCount s.requested n s.bufferLen
  set p := samplesRead s.requested n s.bufferLen
  have key := forRange_induct (P := fun k u => (u.src = s.src ∧ u.epoch = s.epoch) ∧
      ∀ j, u.bit j = if j < o ∧ j < k * n then
        (s.byte .src (j / n)).getLsbD (n - 1 - j % n) else s.bit j)
      0 p (revealLane n o) s ⟨⟨rfl, rfl⟩, by intro j; rw [if_neg (by omega)]⟩ (by
    rintro k u _ ⟨⟨h1, h2⟩, h3⟩
    have lane := forRange_induct (P := fun t v => (v.src = s.src ∧ v.epoch = s.epoch) ∧
        ∀ j, v.bit j = if j < o ∧ j < k * n + t then
          (s.byte .src (j / n)).getLsbD (n - 1 - j % n) else s.bit j)
        0 n (revealBit n o (0 + k)) u ⟨⟨h1, h2⟩, by intro j; simpa using h3 j⟩ (by
      rintro t v ht ⟨⟨g1, g2⟩, g3⟩
      have hsrc : v.byte .src k = s.byte .src k := by
        simp only [State.byte, State.bank, g1, g2]
      simp only [revealBit, Nat.zero_add]
      split
      case isTrue hlt =>
        refine ⟨⟨g1, g2⟩, fun j => ?_⟩
        rw [bit_setBit, hsrc, g3 j]
        by_cases hj : k * n + t = j
        · subst hj
          rw [if_pos rfl, if_pos ⟨hlt, by omega⟩]
          have hdiv : (k * n + t) / n = k := by
            rw [Nat.mul_comm, Nat.mul_add_div (by omega), Nat.div_eq_of_lt ht, Nat.add_zero]
          have hmod : (k * n + t) % n = t := by
            rw [Nat.mul_comm, Nat.mul_add_mod, Nat.mod_eq_of_lt ht]
          rw [hdiv, hmod]
        · rw [if_neg hj]
          congr 1
          simp only [eq_iff_iff]; omega
      case isFalse hlt =>
        refine ⟨⟨g1, g2⟩, fun j => ?_⟩
        rw [g3 j]
        congr 1
        simp only [eq_iff_iff]; omega)
    refine ⟨lane.1, fun j => ?_⟩
    have := lane.2 j
    rw [Nat.add_mul, Nat.one_mul]
    exact this)
  rw [key.2 j]
  congr 1
  simp only [eq_iff_iff]
  omega

/-- A command always answers a next state (R212). -/
theorem exec_next (i : Instr) (s : State) : ∃ t, exec i s = .next t := by
  cases i
  · rcases execHide_cases s with ⟨_, h⟩ | ⟨_, _, h⟩ | ⟨_, _, h⟩ <;> exact ⟨_, h⟩
  · rcases execReveal_cases s with ⟨_, h⟩ | ⟨_, h⟩ <;> exact ⟨_, h⟩

end Sys2Proof.Machine
end

