-- ==== Sys2Proof/Laws/PerInstr.lean ====
section
/-! SUPPORT. The one statement made per instruction: its word, as the opcode map prints it, has ZERO clear
and the command's own OP (spec/30_encoding.md R80, R81). -/

namespace Sys2Proof.Laws.WordFields

/-- A command is well formed, and its word is its OP under a clear ZERO field. -/
def Statement (i : Instr) : Prop :=
  i.wf = true ∧ (encode i).zeroField = 0 ∧ (encode i).opField = opcodeOf i

theorem hide : Statement .hide := by unfold Statement; decide

theorem reveal : Statement .reveal := by unfold Statement; decide

end Sys2Proof.Laws.WordFields
end

