-- ==== Sys2Proof/Laws/Step.lean ====
section
/-! SUPPORT. Everything one step can do, said once: what an access reaches, what a host write does, and the
cases of a step (spec/20_memory.md R55, R60). -/

namespace Sys2Proof.Machine

/-- The decoder names HIDE for its one word, REVEAL for its one word, and is the error it gives for any
other (R81, R83). -/
theorem decode_cases (w : Word) :
    (w = 1 ∧ decode w = .ok .hide) ∨ (w = 2 ∧ decode w = .ok .reveal) ∨
    (w ≠ 1 ∧ w ≠ 2 ∧ ∃ e, decode w = .error e) := by
  have hand : w &&& 0xFFFFFFFF#32 = w := BitVec.and_allOnes
  by_cases h1 : w = 1
  · exact .inl ⟨h1, by subst h1; rfl⟩
  · by_cases h2 : w = 2
    · exact .inr (.inl ⟨h2, by subst h2; rfl⟩)
    · refine .inr (.inr ⟨h1, h2, ?_⟩)
      have hfind : opcodeMap.find? (fun r => r.selects w) = none := by
        simp only [opcodeMap, OpcodeRow.selects, List.find?_cons, List.find?_nil]
        rw [show (w &&& 0xFFFFFFFF) = w from hand]
        rw [beq_false_of_ne h1, beq_false_of_ne h2]
      unfold decode
      rw [hfind]
      simp only
      split
      · exact ⟨_, rfl⟩
      · exact ⟨_, rfl⟩

/-- A CMD write answers a next state for every word (R212): a command's effect, or ILLEGAL and nothing
else (R83). -/
theorem runCommand_cases (w : Word) (s : State) :
    (∃ i, decode w = .ok i ∧ runCommand w s = exec i s) ∨
    (∃ e, decode w = .error e ∧ runCommand w s = .next (s.setCode .illegal)) := by
  unfold runCommand
  cases h : decode w with
  | ok i => exact .inl ⟨i, rfl, rfl⟩
  | error e => exact .inr ⟨e, rfl, rfl⟩

theorem runCommand_next (w : Word) (s : State) : ∃ t, runCommand w s = .next t := by
  rcases runCommand_cases w s with ⟨i, _, h⟩ | ⟨e, _, h⟩
  · obtain ⟨t, ht⟩ := exec_next i s
    exact ⟨t, h.trans ht⟩
  · exact ⟨_, h⟩

/-- What an access inside the ranges reaches: a register, or a byte whose index exists. -/
theorem locate_ok {cap : Nat} {sp : Space} {addr nbytes : Nat} {t : Target}
    (h : locate cap sp addr nbytes = .ok t) :
    (sp = .reg ∧ nbytes = 4 ∧ ∃ r, registerNumbered addr = some r ∧ t = .reg r) ∨
    (∃ b, sp = .mem b ∧ nbytes = 1 ∧ addr < cap ∧ t = .byte b addr) := by
  unfold locate at h
  cases sp with
  | reg =>
    refine .inl ⟨rfl, ?_⟩
    simp only at h
    split at h
    · cases h
    · split at h
      · cases h; exact ⟨by omega, _, by assumption, rfl⟩
      · cases h
  | mem b =>
    refine .inr ⟨b, rfl, ?_⟩
    simp only at h
    split at h
    · cases h
    · split at h
      · cases h; exact ⟨by omega, by assumption, rfl⟩
      · cases h

/-- Exactly the accesses of R55 reach something. -/
theorem locate_ok_iff (cap : Nat) (sp : Space) (addr nbytes : Nat) :
    (∃ t, locate cap sp addr nbytes = .ok t) ↔ accessWf cap sp addr nbytes := by
  unfold locate accessWf
  cases sp with
  | reg =>
    by_cases h : nbytes = 4
    · simp only [h, ne_eq, not_true, if_false]
      match addr with
      | 0 | 1 | 2 | 3 | 4 | 5 | 6 => simp [registerNumbered]
      | n + 7 => simp [registerNumbered]
    · simp [h]
  | mem b =>
    by_cases h : nbytes = 1 <;> by_cases h' : addr < cap <;> simp [h, h']

/-- The next states of a host write: a whole command, a stored register, or a stored byte (R55). -/
theorem hostWrite_next {tg : Target} {v : Nat} {s t : State} (h : hostWrite tg v s = .next t) :
    (tg = .reg .cmd ∧ v < 2 ^ 32 ∧ runCommand (BitVec.ofNat 32 v) s = .next t) ∨
    (∃ r, tg = .reg r ∧ r ≠ .cmd ∧ v < 2 ^ 32 ∧ t = s.writeReg r (BitVec.ofNat 32 v)) ∨
    (∃ b i, tg = .byte b i ∧ v < 2 ^ 8 ∧ t = s.setByte b i (BitVec.ofNat 8 v)) := by
  unfold hostWrite at h
  split at h
  case isFalse => cases h
  case isTrue hv =>
    rcases tg with (r | ⟨b, i⟩)
    · have hv' : v < 2 ^ 32 := by simpa [valueFits] using hv
      cases r with
      | cmd => exact .inl ⟨rfl, hv', h⟩
      | status | nbits | buflen | bitlen | length | outlen =>
        simp only [Host.Outcome.next.injEq] at h
        exact .inr (.inl ⟨_, rfl, by simp, hv', h.symm⟩)
    · have hv' : v < 2 ^ 8 := by simpa [valueFits] using hv
      simp only [Host.Outcome.next.injEq] at h
      exact .inr (.inr ⟨b, i, rfl, hv', h.symm⟩)

/-- A host write whose value fits answers a next state. -/
theorem hostWrite_of_fits (tg : Target) (v : Nat) (s : State) (hv : valueFits tg v) :
    ∃ t, hostWrite tg v s = .next t := by
  unfold hostWrite
  rw [if_pos hv]
  rcases tg with (r | ⟨b, i⟩)
  · cases r
    case cmd => exact runCommand_next _ _
    all_goals exact ⟨_, rfl⟩
  · exact ⟨_, rfl⟩

/-- What a step with a move to perform can do, when it goes on: nothing but record a read, run a command,
store a register, store an existing byte, or reset (R17, R55, R190). `u` is the state with the move taken
off the script. -/
theorem perform_next {mv : Move} {u t : State} (h : perform mv u = .next t) :
    (∃ v, t = u.record v) ∨
    (∃ w, runCommand w u = .next t) ∨
    (∃ r w, r ≠ .cmd ∧ t = u.writeReg r w) ∨
    (∃ b i v, i < u.cap ∧ t = u.setByte b i v) ∨
    (mv = .platformReset ∧ t = u.platformReset) := by
  have write : ∀ {sp addr nbytes tg v}, locate u.cap sp addr nbytes = .ok tg →
      hostWrite tg v u = .next t →
      (∃ w, runCommand w u = .next t) ∨ (∃ r w, r ≠ .cmd ∧ t = u.writeReg r w) ∨
      (∃ b i v, i < u.cap ∧ t = u.setByte b i v) := by
    intro sp addr nbytes tg v hloc hw
    rcases hostWrite_next hw with ⟨_, _, hc⟩ | ⟨r, _, hr, _, ht⟩ | ⟨b, i, htg, _, ht⟩
    · exact .inl ⟨_, hc⟩
    · exact .inr (.inl ⟨r, _, hr, ht⟩)
    · rcases locate_ok hloc with ⟨_, _, r, _, hr⟩ | ⟨b', _, _, hlt, hb⟩
      · rw [hr] at htg; cases htg
      · rw [hb] at htg; cases htg
        exact .inr (.inr ⟨_, _, _, hlt, ht⟩)
  cases mv with
  | memRead sp addr nbytes =>
    simp only [perform] at h
    split at h
    · exact .inl ⟨_, (Host.Outcome.next.inj h).symm⟩
    · cases h
  | memWrite sp addr nbytes v =>
    simp only [perform] at h
    split at h
    · rcases write (by assumption) h with h | h | h
      · exact .inr (.inl h)
      · exact .inr (.inr (.inl h))
      · exact .inr (.inr (.inr (.inl h)))
    · cases h
  | writeBack sp addr nbytes =>
    simp only [perform] at h
    split at h
    · cases h
    · split at h
      · rcases write (by assumption) h with h | h | h
        · exact .inr (.inl h)
        · exact .inr (.inr (.inl h))
        · exact .inr (.inr (.inr (.inl h)))
      · cases h
  | platformReset => exact .inr (.inr (.inr (.inr ⟨rfl, (Host.Outcome.next.inj h).symm⟩)))

/-- A step is the performance of the next move, or nothing when there is none (R17, R18). -/
theorem step_cases (s : State) :
    (s.script = [] ∧ step s = .next s) ∨
    (∃ mv rest, s.script = mv :: rest ∧ step s = perform mv (s.withScript rest)) := by
  unfold step performNext
  cases h : s.script with
  | nil => exact .inl ⟨rfl, rfl⟩
  | cons mv rest => exact .inr ⟨mv, rest, rfl, rfl⟩

/-- A step whose next move is a CMD write runs the command word on the unit. -/
theorem step_commandWrite {s : State} {w : Word} {rest : List Move}
    (h : s.script = commandWrite w :: rest) : step s = runCommand w (s.withScript rest) := by
  have hfit : valueFits (.reg .cmd) w.toNat = true := by
    simp only [valueFits, decide_eq_true_eq]; exact w.isLt
  simp only [step, performNext, h, commandWrite, perform, locate, registerNumbered, ne_eq,
    not_true, if_false, hostWrite, hfit, if_true, BitVec.ofNat_toNat, BitVec.setWidth_eq]

end Sys2Proof.Machine
end

