-- ==== Sys2Proof/Tests/Slice0.lean ====
section
/-! SUPPORT. The model's own tests: ill-formed terms refused, command words written out from the spec's
encoding, a few vectors of spec/95_test_vectors.md (named S, G, T, Z, M as there), and for every statement
that has hypotheses a witness that meets them, one per clause where it has several. -/

namespace Sys2Proof.Tests

open Sys2Proof Sys2Proof.Machine

/-! ## Building small states and looking at outcomes -/

/-- The memory whose first bytes are `vs`. -/
def bytes (vs : List Nat) : Memory := vs.mapIdx fun i v => (i, BitVec.ofNat 8 v)

/-- A unit of SAMPLE_CAP 16 with its operand registers and first bytes set; DST is `DD` everywhere, as in
section 2.1 of the vectors. -/
def unit (nbits buflen bitlen length : Int) (src bitb : List Nat) : State :=
  { State.resetWith 16 with
    nbits := BitVec.ofInt 32 nbits, buflen := BitVec.ofInt 32 buflen,
    bitlen := BitVec.ofInt 32 bitlen, length := BitVec.ofInt 32 length,
    src := bytes src, dst := bytes (List.replicate 16 0xDD), bitb := bytes bitb }

/-- The unit with moves to come. -/
def unitWith (moves : List Move) : State := (unit 1 1 1 1 [0xA5] [0x80]).withScript moves

/-- The outcome is a next state. -/
def isNext : Host.Outcome State Fault Refusal → Bool
  | .next _ => true
  | .fault _ => false
  | .refused _ => false

/-- The next state, where there is one. -/
def nextOf : Host.Outcome State Fault Refusal → State
  | .next t => t
  | .fault _ => State.resetWith 1
  | .refused _ => State.resetWith 1

/-- The refusal, where there is one. -/
def refusalOf : Host.Outcome State Fault Refusal → Option Refusal
  | .next _ => none
  | .fault _ => none
  | .refused r => some r

theorem eq_next_of_isNext {o : Host.Outcome State Fault Refusal} (h : isNext o = true) :
    o = .next (nextOf o) := by
  cases o with
  | next t => rfl
  | fault r => cases h
  | refused r => cases h

/-- The first `k` bytes of a memory. -/
def firstBytes (s : State) (b : Bank) (k : Nat) : List Nat :=
  (List.range k).map fun i => (s.byte b i).toNat

/-! ## Ill-formed terms are refused, by WellFormed and by the step -/

theorem test_wf_register_width : Move.wf 16 none (.memRead .reg 1 2) = false ∧
    refusalOf (step (unitWith [.memRead .reg 1 2])) = some .wrongWidth := by decide

theorem test_wf_byte_width : Move.wf 16 none (.memWrite (.mem .src) 0 4 0) = false ∧
    refusalOf (step (unitWith [.memWrite (.mem .src) 0 4 0])) = some .wrongWidth := by decide

theorem test_wf_register_number : Move.wf 16 none (.memRead .reg 7 4) = false ∧
    refusalOf (step (unitWith [.memRead .reg 7 4])) = some .noSuchRegister := by decide

theorem test_wf_index : Move.wf 16 none (.memRead (.mem .bitb) 16 1) = false ∧
    refusalOf (step (unitWith [.memRead (.mem .bitb) 16 1])) = some .noSuchIndex := by decide

theorem test_wf_byte_value : Move.wf 16 none (.memWrite (.mem .dst) 0 1 256) = false ∧
    refusalOf (step (unitWith [.memWrite (.mem .dst) 0 1 256])) = some .valueDoesNotFit := by decide

theorem test_wf_word_value : Move.wf 16 none (.memWrite .reg 0 4 (2 ^ 32)) = false ∧
    refusalOf (step (unitWith [.memWrite .reg 0 4 (2 ^ 32)])) = some .valueDoesNotFit := by decide

theorem test_wf_writeBack_of_nothing : Move.wf 16 none (.writeBack (.mem .src) 0 1) = false ∧
    refusalOf (step (unitWith [.writeBack (.mem .src) 0 1])) = some .nothingRead := by decide

theorem test_wf_writeBack_value : Move.wf 16 (some 256) (.writeBack (.mem .src) 0 1) = false := by decide

theorem test_wf_edges_accepted : Move.wf 16 none (.memRead (.mem .bitb) 15 1) = true ∧
    Move.wf 16 none (.memRead .reg 6 4) = true ∧
    Move.wf 16 none (.memWrite (.mem .dst) 0 1 255) = true := by decide

theorem test_wf_script_lines :
    (ScriptLine.wr .status 0).wf = false ∧ (ScriptLine.rd .cmd).wf = false ∧
    (ScriptLine.wr .nbits (2 ^ 32)).wf = false ∧ (ScriptLine.cmd (-2 ^ 31 - 1)).wf = false ∧
    (ScriptLine.expect .cmd 0).wf = false ∧ (ScriptLine.ws 0 256).wf = false ∧
    (ScriptLine.wd 0 256).wf = false ∧ (ScriptLine.wb 0 256).wf = false ∧
    (ScriptLine.srcFill 0 [0, 256]).wf = false ∧ (ScriptLine.bitFill 0 [256]).wf = false := by decide

/-! ## Decoding: words written out bit by bit from R80 and R81; T2 and T3 -/

theorem test_decode_hide : decode 0b0000000000000000000000000000_0001#32 = .ok .hide := by decide

theorem test_decode_reveal : decode 0b0000000000000000000000000000_0010#32 = .ok .reveal := by decide

theorem test_decode_illegal :
    [0x00000000#32, 0x00000003#32, 0x0000000F#32, 0x00000011#32, 0x00000012#32, 0x80000001#32,
      0xFFFFFFFF#32].all (fun w => decode w matches .error _) = true := by decide

theorem test_decodeTableWord : decodeTableWord 32 1 = some .hide ∧ decodeTableWord 32 2 = some .reveal ∧
    decodeTableWord 32 3 = none := by decide

theorem test_placed_word_runs_first :
    (nextOf (step (State.reset.withFetchWord 32 1))).code = .ok ∧
    (nextOf (step (State.reset.withFetchWord 32 2))).code = .ok := ⟨rfl, rfl⟩

/-! ## Vectors -/

/-- S2: a short chunk in the lowest bit. -/
theorem test_hide_S2 :
    firstBytes (nextOf (exec .hide (unit 3 6 16 0 [0xA5, 0x3C, 0x7E, 0x81, 0x12, 0xF4] [0x48, 0x69])))
      .dst 7 = [0xA2, 0x3A, 0x78, 0x86, 0x14, 0xF5, 0xDD] := by decide +kernel

/-- S16b: ILLEGAL before CAPACITY, DST untouched. -/
theorem test_hide_S16b :
    (nextOf (exec .hide (unit 8 17 4294967295 0 [] []))).readReg .status = 3 ∧
    firstBytes (nextOf (exec .hide (unit 8 17 4294967295 0 [] []))) .dst 2 = [0xDD, 0xDD] := by
  decide +kernel

/-- G3: two characters dropped, the low bits of the last byte stale. -/
theorem test_reveal_G3 :
    let t := nextOf (exec .reveal
      (unit 3 6 0 10 [0xA2, 0x3A, 0x78, 0x86, 0x14, 0xF5] [0xFF, 0xFF, 0xFF]))
    t.readReg .outlen = 10 ∧ firstBytes t .bitb 3 = [0x48, 0x7F, 0xFF] := by decide +kernel

/-- G6c: the most negative LENGTH reads the whole buffer and drops two characters. -/
theorem test_reveal_G6c :
    let t := nextOf (exec .reveal
      (unit 3 6 0 (-2147483648) [0xA2, 0x3A, 0x78, 0x86, 0x14, 0xF5] [0xFF, 0xFF, 0xFF]))
    t.readReg .outlen = 16 ∧ firstBytes t .bitb 3 = [0x48, 0x69, 0xFF] := by decide +kernel

/-- T8: bit index 0 is bit 7 of the byte. -/
theorem test_bit_order_T8 :
    (nextOf (step (unitWith [.memWrite (.mem .bitb) 0 1 0x48]))).bits 0 8 =
      [false, true, false, false, true, false, false, false] := by decide

/-- T5: writes to STATUS and OUTLEN are ignored; T6: NBITS reads back unclamped. -/
theorem test_register_writes_T5_T6 :
    (nextOf (step { unitWith [.memWrite .reg 1 4 0] with code := .ok })).readReg .status = 1 ∧
    (nextOf (step { unitWith [.memWrite .reg 6 4 0x63] with outlen := 19 })).readReg .outlen = 19 ∧
    (nextOf (step (unitWith [.memWrite .reg 2 4 0xFFFFFFFB]))).readReg .nbits = 0xFFFFFFFB := by decide

/-- Table M1, the rows of `fmod(L, -3)` and `ceil_div(L, 3)` for L = -7 .. 7. -/
theorem test_table_M1 :
    ((List.range 15).map fun t => fmod ((t : Int) - 7) (-3)) =
      [-1, 0, -2, -1, 0, -2, -1, 0, -2, -1, 0, -2, -1, 0, -2] ∧
    ((List.range 15).map fun t => ceilDiv ((t : Int) - 7) 3) =
      [-2, -2, -1, -1, -1, 0, 0, 0, 1, 1, 1, 2, 2, 2, 3] := by decide

/-- X2: seven bits are padded to "H"; the empty string decodes to the empty message. -/
theorem test_decode_message_X2 :
    decodeMessage [false, true, false, false, true, false, false] = ['H'] ∧ decodeMessage [] = [] := by
  decide +kernel

/-- R87, R88: the moves of a padded BITSTR, of a WR with a negative number, and of COPYBACK. -/
theorem test_script_moves :
    scriptMoves [.bitStr [true, false, true], .wr .length (-5), .copyBack 1] =
      [.memWrite (.mem .bitb) 0 1 0xA0, .memWrite .reg 5 4 0xFFFFFFFB,
        .memRead (.mem .dst) 0 1, .writeBack (.mem .src) 0 1] := by decide

/-! ## Witnesses: for each statement with hypotheses, a state and operands that meet them together -/

/-- A unit that has pending the CMD write of `w`. -/
def commanded (w : Word) : State := unitWith [commandWrite w]

/-- S6: chunk "10110" and the short chunk "011" at width 5. -/
def hideS6 : State := unit 5 3 8 8 [0xFF, 0xFF, 0x00] [0xB3]

/-- S6's output as the source of a REVEAL (G11). -/
def revealG11 : State := unit 5 3 8 8 [0xF6, 0xFB, 0x00] [0xFF, 0xFF]

theorem witness_PlatformResetLeavesOnlyFreeContents :
    (unitWith [.platformReset]).script = .platformReset :: [] := rfl

theorem witness_EveryStepKeepsWellFormedness : (commanded 1).Inv ∧
    step (commanded 1) = .next (nextOf (step (commanded 1))) :=
  ⟨by decide, eq_next_of_isNext (by decide +kernel)⟩

theorem witness_DecodeAndEncodeAgree :
    decode 0x00000001#32 = .ok .hide ∧ decode 0x00000002#32 = .ok .reveal := by decide

theorem witness_StepRunsTheDecodedCommand :
    ((commanded 2).script = commandWrite 2 :: [] ∧ decode 2#32 = .ok .reveal) ∧
    (unitWith []).script = [] := by decide

theorem witness_CmdRegisterTriggersAndReadsZero :
    ((commanded 1).script = .memWrite .reg 0 4 (1#32).toNat :: [] ∧ decode 1#32 = .ok .hide) ∧
    ((commanded 3).script = .memWrite .reg 0 4 (3#32).toNat :: [] ∧
      decode 3#32 = .error .noSuchOpcode) ∧
    (unitWith [.memRead .reg 0 4]).script = .memRead .reg 0 4 :: [] := by decide

theorem witness_IllegalWordSetsIllegalOnly :
    (commanded 0x00000011).script = commandWrite 0x00000011 :: [] ∧
    (0x00000011 : Word) ≠ 0x00000001#32 ∧ (0x00000011 : Word) ≠ 0x00000002#32 := by decide

theorem witness_EveryCommandWriteCompletes : (commanded 0xFFFFFFFF).script = commandWrite 0xFFFFFFFF :: [] :=
  rfl

theorem witness_ChecksFireInOrder :
    (commanded 0).script = commandWrite 0 :: [] ∧
    ((commanded 1).cap < { commanded 1 with buflen := 17 }.bufferLen) ∧
    (let s := { commanded 1 with bitlen := 2 }
     s.bufferLen ≤ s.cap ∧ s.bufferLen * s.width < s.bitCount) ∧
    ((commanded 1).bufferLen ≤ (commanded 1).cap ∧
      (commanded 1).bitCount ≤ (commanded 1).bufferLen * (commanded 1).width) := by decide

theorem witness_FailedCommandsWriteOnlyStatus :
    (let s := { commanded 1 with bitlen := 2 }
     s.script = commandWrite 1 :: [] ∧ step s = .next (nextOf (step s)) ∧
      (nextOf (step s)).code = .capacity) ∧
    (let s := { commanded 2 with buflen := 17 }
     s.script = commandWrite 2 :: [] ∧ step s = .next (nextOf (step s)) ∧
      (nextOf (step s)).code = .illegal) :=
  ⟨⟨rfl, eq_next_of_isNext (by decide +kernel), by decide +kernel⟩,
    ⟨rfl, eq_next_of_isNext (by decide +kernel), by decide +kernel⟩⟩

theorem witness_NextCommandIgnoresOldStatus :
    { commanded 1 with code := .illegal }.script = commandWrite 1 :: [] := rfl

theorem witness_CommandsNeverWriteSrc : (commanded 1).script = commandWrite 1 :: [] ∧
    step (commanded 1) = .next (nextOf (step (commanded 1))) :=
  ⟨rfl, eq_next_of_isNext (by decide +kernel)⟩

theorem witness_WidthIsClampedNbits :
    ((0 : Int) < 1 ∧ (1 : Int) ≤ 1 ∧ (8 : Int) ≤ 8 ∧ (8 : Int) < 9) ∧
    (unit 0 1 1 1 [] []).nbits.toInt < 1 ∧ (unit (-2147483648) 1 1 1 [] []).nbits.toInt < 1 ∧
    8 < (unit 9 1 1 1 [] []).nbits.toInt := by decide

theorem witness_CeilDivIsTheLeastCeiling : (1 ≤ (3 : Nat)) ∧ ((1 : Int) ≤ 1 * (3 : Nat)) ∧
    ((0 : Int) ≤ 0) ∧ ((1 : Int) ≤ 1) := by decide

theorem witness_FmodTakesTheSignOfTheDivisor : ((1 : Int) ≠ 0 ∧ (0 : Int) < 1) ∧
    ((-1 : Int) ≠ 0 ∧ (-1 : Int) < 0) := by decide

theorem witness_StatusRegisterLayout :
    (2 ^ 32 - 1 < 2 ^ 32 ∧ (unitWith [.memWrite .reg 1 4 (2 ^ 32 - 1)]).script =
      .memWrite .reg 1 4 (2 ^ 32 - 1) :: []) ∧
    (commanded 1).script = commandWrite 1 :: [] ∧
    (let s := { unitWith [.memWrite .reg 1 4 0] with code := .ok }
     s.code ≠ .none ∧ s.script.head? ≠ some .platformReset ∧ step s = .next (nextOf (step s))) :=
  ⟨by decide, rfl, by decide, by decide, eq_next_of_isNext (by decide)⟩

theorem witness_HostReadsHaveNoSideEffect :
    (unitWith [.memRead .reg 6 4]).script = .memRead .reg RegName.outlen.number 4 :: [] ∧
    (15 < (unitWith [.memRead (.mem .src) 15 1]).cap ∧
      (unitWith [.memRead (.mem .src) 15 1]).script = .memRead (.mem .src) 15 1 :: []) := by decide

theorem witness_RegisterWritesStoreTheWord :
    (RegName.nbits ≠ .cmd ∧ (unitWith [.memWrite .reg 2 4 0xFFFFFFFB]).script =
      .memWrite .reg RegName.nbits.number 4 (0xFFFFFFFB#32).toNat :: []) ∧
    (RegName.outlen ≠ .cmd ∧ (unitWith [.memWrite .reg 6 4 0x63]).script =
      .memWrite .reg RegName.outlen.number 4 (0x63#32).toNat :: []) := by decide

theorem witness_ByteWritesStoreOneByte :
    let s := unitWith [.memWrite (.mem .bitb) 15 1 0xFF]
    15 < s.cap ∧ s.script = .memWrite (.mem .bitb) 15 1 (0xFF#8).toNat :: [] := by decide

/-- A write-back to a register, and one whose reading does not fit the byte, which is refused. -/
theorem witness_WriteBackWritesTheLatestReading :
    (let s := { unitWith [.writeBack .reg 5 4] with readings := [3, 7] }
     s.script = .writeBack .reg 5 4 :: [] ∧ s.readings.getLast? = some 7) ∧
    (let s := { unitWith [.writeBack (.mem .src) 15 1] with readings := [256] }
     s.script = .writeBack (.mem .src) 15 1 :: [] ∧ s.readings.getLast? = some 256) := by decide

theorem witness_CopyBackCopiesOneSample :
    let s := unitWith (scriptMoves [.copyBack 1])
    0 < s.cap ∧ s.script = .memRead (.mem .dst) 0 1 :: .writeBack (.mem .src) 0 1 :: [] := by decide

theorem witness_BitMemoryIsMostSignificantFirst :
    let s := unitWith [.memRead (.mem .bitb) 15 1]
    15 < s.cap ∧ s.script = .memRead (.mem .bitb) 15 1 :: [] := by decide

theorem witness_ExactlyUndefinedAccessesAreRefused :
    (unitWith [.memRead .reg 7 4]).nextMoveWf = false ∧
    (unitWith [.memRead .reg 6 4]).nextMoveWf = true := by decide

/-- A register other than CMD changes by a reset, by a CMD write, by its own write, and by a write-back. -/
theorem witness_RegistersChangeOnlyByTheirOwnCause :
    (let s := unitWith [.platformReset]
     isNext (step s) = true ∧ (nextOf (step s)).readReg .nbits ≠ s.readReg .nbits) ∧
    (let s := commanded 1
     isNext (step s) = true ∧ (nextOf (step s)).readReg .status ≠ s.readReg .status) ∧
    (let s := unitWith [.memWrite .reg 5 4 7]
     isNext (step s) = true ∧ (nextOf (step s)).readReg .length ≠ s.readReg .length) ∧
    (let s := { unitWith [.writeBack .reg 5 4] with readings := [7] }
     isNext (step s) = true ∧ (nextOf (step s)).readReg .length ≠ s.readReg .length) := by
  decide +kernel

/-- A byte changes by its own write, by a write-back, and, in DST, by a CMD write. -/
theorem witness_BytesChangeOnlyByTheirOwnCause :
    (let s := unitWith [.memWrite (.mem .src) 0 1 7]
     isNext (step s) = true ∧ (nextOf (step s)).byte .src 0 ≠ s.byte .src 0) ∧
    (let s := { unitWith [.writeBack (.mem .src) 0 1] with readings := [7] }
     isNext (step s) = true ∧ (nextOf (step s)).byte .src 0 ≠ s.byte .src 0) ∧
    (let s := commanded 1
     isNext (step s) = true ∧ (nextOf (step s)).byte .dst 0 ≠ s.byte .dst 0) := by
  decide +kernel

/-- S6: slot 1 has the short chunk, slot 2 is copied. -/
theorem witness_HideScattersTheChunks : hideS6.bufferLen ≤ hideS6.cap ∧
    hideS6.bitCount ≤ hideS6.bufferLen * hideS6.width ∧
    (1 * hideS6.width < hideS6.bitCount ∧
      2 < min hideS6.width (hideS6.bitCount - 1 * hideS6.width) ∧
      min hideS6.width (hideS6.bitCount - 1 * hideS6.width) ≤ 3) ∧
    (hideS6.bitCount ≤ 2 * hideS6.width ∧ 2 < hideS6.bufferLen) := by decide

theorem witness_HideLeavesAllElseAlone :
    exec .hide hideS6 = .next (nextOf (exec .hide hideS6)) ∧
    (nextOf (exec .hide hideS6)).code = .ok ∧ hideS6.bufferLen ≤ 3 :=
  ⟨eq_next_of_isNext (by decide +kernel), by decide +kernel, by decide⟩

theorem witness_HideHasThreeOutcomes :
    (unit 1 17 0 0 [] []).cap < (unit 1 17 0 0 [] []).bufferLen ∧
    (let s := unit 4 2 9 0 [] []
     s.bufferLen ≤ s.cap ∧ s.bufferLen * s.width < s.bitCount) ∧
    (let s := unit 4 2 8 0 [] []
     s.bufferLen ≤ s.cap ∧ s.bitCount ≤ s.bufferLen * s.width) := by decide

theorem witness_CapacityBoundaryIsExact : (unit 8 16 0 0 [] []).Inv ∧
    (unit 8 16 0 0 [] []).bufferLen ≤ (unit 8 16 0 0 [] []).cap := by decide

/-- S6 has two chunks: 0 is full, 1 is the last; m = 0 is the other clause. -/
theorem witness_ChunksPartitionTheString :
    (0 + 1 < chunkCount hideS6.bitCount hideS6.width) ∧
    (1 + 1 = chunkCount hideS6.bitCount hideS6.width) ∧ (unit 1 0 0 0 [] []).bitCount = 0 := by decide

/-- S2 at its boundary, m = B * n = 18, and S6. -/
theorem witness_EveryChunkHasASlot :
    (let s := unit 3 6 18 0 [] []
     s.bitCount = s.bufferLen * s.width ∧ s.bitCount ≤ s.bufferLen * s.width) ∧
    hideS6.bitCount ≤ hideS6.bufferLen * hideS6.width := by decide

theorem witness_HideIsTheSameInEveryLaneOrder :
    (hideS6.Inv ∧ hideS6.bufferLen ≤ hideS6.cap ∧
      hideS6.bitCount ≤ hideS6.bufferLen * hideS6.width ∧
      [2, 0, 1].Perm (List.range hideS6.bufferLen)) ∧ (1 ≠ 0) ∧
    (hideS6.byte .src 1 = (hideS6.setCode .ok).byte .src 1 ∧
      ∀ x, 1 * 5 ≤ x → x < min (1 * 5 + 5) 8 → hideS6.bit x = (hideS6.setCode .ok).bit x) :=
  ⟨by decide, by decide, rfl, fun _ _ _ => rfl⟩

theorem witness_HideAtWidthOne :
    let s := unit 0 2 2 0 [] []
    s.width = 1 ∧ s.bufferLen ≤ s.cap ∧ s.bitCount ≤ s.bufferLen ∧ 1 < s.bitCount := by decide

theorem witness_HideAtWidthEightCopiesTheBytes :
    let s := unit 20 2 16 0 [] []
    s.width = 8 ∧ s.bufferLen ≤ s.cap ∧ s.bitCount ≤ s.bufferLen * 8 ∧ 8 ∣ s.bitCount ∧
      1 < s.bitCount / 8 := by decide

theorem witness_HideOfNothingAndIntoNothing :
    (let s := unit 3 3 0 0 [] []
     s.bitCount = 0 ∧ s.bufferLen ≤ s.cap) ∧
    (let s := unit 1 0 0 0 [] []
     s.bufferLen = 0 ∧ s.bitCount = 0) ∧
    (let s := unit 1 0 1 0 [] []
     s.bufferLen = 0 ∧ 1 ≤ s.bitCount) := by decide

theorem witness_HideChangesASampleByLessThanTwoToTheWidth :
    exec .hide hideS6 = .next (nextOf (exec .hide hideS6)) ∧
    (nextOf (exec .hide hideS6)).code = .ok ∧ 2 < hideS6.bufferLen :=
  ⟨eq_next_of_isNext (by decide +kernel), by decide +kernel, by decide⟩

theorem witness_HideTwiceIsHideOnce : hideS6.Inv ∧
    exec .hide hideS6 = .next (nextOf (exec .hide hideS6)) :=
  ⟨by decide, eq_next_of_isNext (by decide +kernel)⟩

/-- Two states that differ in LENGTH, in a sample beyond the buffer and in a bit beyond the string. -/
theorem witness_HideDependsOnlyOnItsOperands :
    let s := unit 5 3 8 8 [0xFF, 0xFF, 0x00, 0x11] [0xB3, 0x00]
    let u := unit 5 3 8 0 [0xFF, 0xFF, 0x00, 0x22] [0xB3, 0xFF]
    s.nbits = u.nbits ∧ s.buflen = u.buflen ∧ s.bitlen = u.bitlen ∧ s.cap = u.cap ∧
      (∀ i, i < s.bufferLen → s.byte .src i = u.byte .src i) ∧
      (∀ j, j < s.bitCount → s.bit j = u.bit j) ∧ s.length ≠ u.length := by decide +kernel

theorem witness_ClampedWidthsBehaveAlike :
    (1#32).toInt ≤ 1 ∧ (0x80000000#32).toInt ≤ 1 ∧ 8 ≤ (8#32).toInt ∧ 8 ≤ (0x7FFFFFFF#32).toInt := by
  decide

/-- G7a: p0 = B, no fallback; G7b: p0 = 5 exceeds B = 4; G5: L = -5. -/
theorem witness_RevealGathersTheLowBits :
    (let s := unit 3 4 0 12 [] []
     s.Inv ∧ s.bufferLen ≤ s.cap ∧ ((4 : Int) - 1) * s.width < s.length.toInt ∧
      s.length.toInt ≤ (4 : Int) * s.width ∧ (0 : Int) < s.width ∧
      (s.width : Int) ∣ s.length.toInt + 0 ∧
      4 = (if (4 : Int) ≤ 0 ∨ (s.bufferLen : Int) < 4 then s.bufferLen else (4 : Int).toNat)) ∧
    (let s := unit 3 4 0 13 [] []
     s.Inv ∧ s.bufferLen ≤ s.cap ∧ ((5 : Int) - 1) * s.width < s.length.toInt ∧
      s.length.toInt ≤ (5 : Int) * s.width ∧ (0 : Int) ≤ 2 ∧ (2 : Int) < s.width ∧
      (s.width : Int) ∣ s.length.toInt + 2 ∧
      4 = (if (5 : Int) ≤ 0 ∨ (s.bufferLen : Int) < 5 then s.bufferLen else (5 : Int).toNat)) ∧
    (let s := unit 3 6 0 (-5) [] []
     s.Inv ∧ s.bufferLen ≤ s.cap ∧ ((-1 : Int) - 1) * s.width < s.length.toInt ∧
      s.length.toInt ≤ (-1 : Int) * s.width ∧ (0 : Int) ≤ 2 ∧ (2 : Int) < s.width ∧
      (s.width : Int) ∣ s.length.toInt + 2 ∧
      6 = (if (-1 : Int) ≤ 0 ∨ (s.bufferLen : Int) < -1 then s.bufferLen else (-1 : Int).toNat)) := by
  decide

theorem witness_RevealFailsOnlyWhenTheBufferIsTooLong :
    (unit 3 17 0 5 [] []).cap < (unit 3 17 0 5 [] []).bufferLen ∧
    (unit 3 16 0 5 [] []).bufferLen ≤ (unit 3 16 0 5 [] []).cap ∧
    exec .reveal revealG11 = .next (nextOf (exec .reveal revealG11)) :=
  ⟨by decide, by decide, eq_next_of_isNext (by decide +kernel)⟩

theorem witness_RevealLeavesAllElseAlone : revealG11.Inv ∧
    exec .reveal revealG11 = .next (nextOf (exec .reveal revealG11)) ∧
    (nextOf (exec .reveal revealG11)).code = .ok ∧ (nextOf (exec .reveal revealG11)).resultLen ≤ 8 * 1 :=
  ⟨by decide, eq_next_of_isNext (by decide +kernel), by decide +kernel, by decide +kernel⟩

/-- G3: OUTLEN = 10, so two bits of byte 1 are written, the last of them character 9, and six are not. -/
theorem witness_RevealDoesNotZeroFill :
    let s := unit 3 6 0 10 [0xA2, 0x3A, 0x78, 0x86, 0x14, 0xF5] [0xFF, 0xFF, 0xFF]
    let t := nextOf (exec .reveal s)
    s.Inv ∧ exec .reveal s = .next t ∧ t.code = .ok ∧
      (8 - t.resultLen % 8 ≤ 6 ∧ 6 < 8 ∧ t.resultLen % 8 ≠ 0 ∧ 9 = t.resultLen / 8 * 8 + (7 - 6)) ∧
      5 < 8 - t.resultLen % 8 ∧
      t.resultLen / 8 < 2 :=
  ⟨by decide, eq_next_of_isNext (by decide +kernel), by decide +kernel, by decide +kernel,
    by decide +kernel, by decide +kernel⟩

/-- L = 1 and L = B * n, L = 0, L = B * n + 1, and B = 0. -/
theorem witness_RevealResultLengths :
    (let s := unit 3 4 0 1 [] []
     s.Inv ∧ s.bufferLen ≤ s.cap ∧ 1 ≤ s.length.toInt ∧
      s.length.toInt ≤ s.bufferLen * s.width ∧ 1 ≤ s.bufferLen) ∧
    (let s := unit 3 4 0 12 [] []
     1 ≤ s.length.toInt ∧ s.length.toInt ≤ s.bufferLen * s.width) ∧
    (unit 3 4 0 0 [] []).length.toInt ≤ 0 ∧
    (let s := unit 3 4 0 13 [] []
     (s.bufferLen : Int) * s.width < s.length.toInt) ∧
    (unit 3 0 0 (-5) [] []).bufferLen = 0 := by decide

theorem witness_RevealAtWidthEightAndOne :
    (let s := unit 20 3 0 16 [0x48, 0x69, 0x21] [0xFF, 0xFF, 0xFF]
     s.Inv ∧ s.bufferLen ≤ s.cap ∧ s.width = 8 ∧
      8 * 1 + 8 ≤ (nextOf (exec .reveal s)).resultLen) ∧
    (let s := unit (-7) 4 0 2 [0x01, 0x00, 0x03, 0xFE] [0xFF]
     s.Inv ∧ s.bufferLen ≤ s.cap ∧ s.width = 1 ∧ 1 < (nextOf (exec .reveal s)).resultLen) := by
  decide +kernel

theorem witness_RevealIsTheSameInEveryLaneOrder : revealG11.bufferLen ≤ revealG11.cap ∧
    [1, 0].Perm (List.range (samplesRead revealG11.requested revealG11.width revealG11.bufferLen)) := by
  decide

theorem witness_RevealTwiceIsRevealOnce : revealG11.Inv ∧
    exec .reveal revealG11 = .next (nextOf (exec .reveal revealG11)) :=
  ⟨by decide, eq_next_of_isNext (by decide +kernel)⟩

/-- Two states that differ in BITLEN, in BIT and in a sample beyond the buffer. -/
theorem witness_RevealDependsOnlyOnItsOperands :
    let s := unit 5 3 8 8 [0xF6, 0xFB, 0x00, 0x11] [0xFF, 0xFF]
    let u := unit 5 3 0 8 [0xF6, 0xFB, 0x00, 0x22] [0x00, 0x00]
    s.Inv ∧ s.nbits = u.nbits ∧ s.buflen = u.buflen ∧ s.length = u.length ∧ s.cap = u.cap ∧
      (∀ i, i < s.bufferLen → s.byte .src i = u.byte .src i) ∧ s.bitlen ≠ u.bitlen := by
  decide +kernel

theorem witness_RevealOfUnwrittenSamples : (2 : Nat) ≤ 2 ∧
    ∃ s : State, s = { State.resetWith 2 with buflen := 2, nbits := 8 } := ⟨by decide, _, rfl⟩

/-- What a COPYBACK leaves after a HIDE from `s`: the output buffer as the source, LENGTH = BITLEN. -/
def copiedBack (s : State) : State :=
  { nextOf (exec .hide s) with src := (nextOf (exec .hide s)).dst, length := s.bitlen }

/-- The hypotheses that the round trip shares, of a HIDE from `s`. -/
def RoundTripSetup (s : State) : Prop :=
  s.Inv ∧ exec .hide s = .next (nextOf (exec .hide s)) ∧ (nextOf (exec .hide s)).code = .ok ∧
  (copiedBack s).cap = s.cap ∧ (copiedBack s).nbits = s.nbits ∧ (copiedBack s).buflen = s.buflen ∧
  (∀ i, i < s.bufferLen → (copiedBack s).byte .src i = (nextOf (exec .hide s)).byte .dst i) ∧
  (copiedBack s).length.toInt = s.bitCount

/-- Case 1: S4 (n = 4, m = 16). Case 2: S6 (n = 5, m = 8). Case 3: S13 (m = 0). -/
theorem witness_RevealAfterHideReturns :
    (let s := unit 4 5 16 0 [0xFF, 0x00, 0xF0, 0x0F, 0x77] [0x48, 0x69]
     RoundTripSetup s ∧ 1 ≤ s.bitCount ∧ s.width ∣ s.bitCount) ∧
    (RoundTripSetup hideS6 ∧ ¬ hideS6.width ∣ hideS6.bitCount ∧
      2 < hideS6.bitCount % hideS6.width) ∧
    (let s := unit 3 3 0 0 [0x01, 0x02, 0x03] []
     RoundTripSetup s ∧ s.bitCount = 0) :=
  ⟨⟨⟨by decide, eq_next_of_isNext (by decide +kernel), by decide +kernel, by decide +kernel,
      by decide +kernel, by decide +kernel, by decide +kernel, by decide +kernel⟩, by decide, by decide⟩,
    ⟨⟨by decide, eq_next_of_isNext (by decide +kernel), by decide +kernel, by decide +kernel,
      by decide +kernel, by decide +kernel, by decide +kernel, by decide +kernel⟩, by decide, by decide⟩,
    ⟨⟨by decide, eq_next_of_isNext (by decide +kernel), by decide +kernel, by decide +kernel,
      by decide +kernel, by decide +kernel, by decide +kernel, by decide +kernel⟩, by decide⟩⟩

/-- "Hi" at width 4 into five samples. -/
theorem witness_HiddenMessageComesBack :
    let s := unit 4 5 16 0 [0xFF, 0x00, 0xF0, 0x0F, 0x77] [0x48, 0x69]
    (['H', 'i'] : Message) ≠ [] ∧ s.bitCount = (encodeMessage ['H', 'i']).length ∧
      s.bits 0 s.bitCount = encodeMessage ['H', 'i'] ∧ s.width ∣ s.bitCount ∧ RoundTripSetup s :=
  ⟨by decide, by decide +kernel, by decide +kernel, by decide,
    ⟨by decide, eq_next_of_isNext (by decide +kernel), by decide +kernel, by decide +kernel,
      by decide +kernel, by decide +kernel, by decide +kernel, by decide +kernel⟩⟩

theorem witness_BytesOfBitbAreTheBitString :
    ∀ k, k < ([0x48#8, 0x69#8] : List Byte).length →
      ([0x48#8, 0x69#8] : List Byte)[k]? = some ((unit 1 0 0 0 [] [0x48, 0x69]).byte .bitb k) := by
  decide +kernel

theorem witness_FlatteningIsRowMajorChannelLast : (1 < 2) ∧ (2 < 3) ∧ (2 < 3) ∧ (0 < 3) ∧
    flatIndex 3 3 1 2 2 = flatIndex 3 3 1 2 2 := by decide

end Sys2Proof.Tests
end

section
/-! PROOFS. The scope rules (spec/00_scope.md section 4.1): the clamp, the effective width, and `ceil_div`. -/

namespace Sys2Proof.Machine

/-- Below the range the clamp is its lower end (R11). -/
theorem clamp_of_lt {v lo : Int} (hi : Int) (h : v < lo) : clamp v lo hi = lo := if_pos h

/-- Above the range the clamp is its upper end (R11). -/
theorem clamp_of_gt {v lo hi : Int} (hlo : lo ≤ v) (hhi : hi < v) : clamp v lo hi = hi :=
  (if_neg (not_lt.2 hlo)).trans (if_pos hhi)

/-- In the range the clamp changes nothing (R11). -/
theorem clamp_of_mem {v lo hi : Int} (hlo : lo ≤ v) (hhi : v ≤ hi) : clamp v lo hi = v :=
  (if_neg (not_lt.2 hlo)).trans (if_neg (not_lt.2 hhi))

/-- An integer bounds `ceil_div(a, n)` exactly when it bounds the quotient `a / n` (R12): multiplied out,
so that the quotient need not be rational. -/
theorem ceilDiv_le_iff {n : Nat} (hn : 1 ≤ n) (a c : Int) : ceilDiv a n ≤ c ↔ a ≤ c * n := by
  have hpos : (0 : Int) < n := by exact_mod_cast hn
  rw [ceilDiv_eq_neg_ediv, neg_le, Int.le_ediv_iff_mul_le hpos, neg_mul, neg_le_neg_iff]

/-- Settles O17: the three branches of the clamp, and the two ends of the width from `width_eq`. -/
theorem widthIsClampedNbits : Obligations.WidthIsClampedNbits := by
  unfold Obligations.WidthIsClampedNbits
  refine ⟨fun v lo hi => ⟨clamp_of_lt hi, clamp_of_gt, clamp_of_mem⟩, fun s => ?_⟩
  have hw := width_eq s
  refine ⟨hw, fun hlow => ?_, fun hhigh => ?_⟩
  · omega
  · omega

/-- Settles O18: every clause is `ceilDiv_le_iff` at one bound, namely `ceil_div` itself, any `c`, and 0 twice. -/
theorem ceilDivIsTheLeastCeiling : Obligations.CeilDivIsTheLeastCeiling := by
  unfold Obligations.CeilDivIsTheLeastCeiling
  intro a n hn
  have hzero : ceilDiv a n ≤ 0 ↔ a ≤ 0 := by simpa using ceilDiv_le_iff hn a 0
  refine ⟨(ceilDiv_le_iff hn a _).1 le_rfl, fun c => (ceilDiv_le_iff hn a c).2, hzero.2, fun ha => ?_⟩
  have : ¬ ceilDiv a n ≤ 0 := fun h => by have := hzero.1 h; omega
  omega

end Sys2Proof.Machine
end

section
/-! PROOFS. The two registers a CMD write meets (spec/10_state.md R29, R30): CMD, which triggers and stores
nothing, and STATUS, which holds CODE. -/

namespace Sys2Proof.Machine

/-- A step with a move pending is the performance of that move, taken off the script (R17). -/
theorem step_of_script {s : State} {mv : Move} {rest : List Move} (h : s.script = mv :: rest) :
    step s = perform mv (s.withScript rest) := by
  rcases step_cases s with ⟨hnil, _⟩ | ⟨mv', rest', hcons, hstep⟩
  · simp [h] at hnil
  · obtain ⟨rfl, rfl⟩ : mv = mv' ∧ rest = rest' := by simpa [h] using hcons
    exact hstep

/-- A whole-word access at a register's number reaches that register (R31, R55). -/
@[simp] theorem locate_reg_number (cap : Nat) (r : RegName) :
    locate cap .reg r.number 4 = .ok (.reg r) := by cases r <;> rfl

/-- A host read of a register records its value and does nothing else (R55). -/
theorem step_readReg {s : State} {r : RegName} {rest : List Move}
    (h : s.script = .memRead .reg r.number 4 :: rest) :
    step s = .next ((s.withScript rest).record (s.readReg r).toNat) := by
  rw [step_of_script h]
  simp only [perform, locate_reg_number, hostRead, withScript_readReg]

/-- A host write of a word to a register other than CMD stores what `writeReg` stores (R55). -/
theorem step_writeReg {s : State} {r : RegName} {v : Nat} {rest : List Move} (hr : r ≠ .cmd)
    (hv : v < 2 ^ 32) (h : s.script = .memWrite .reg r.number 4 v :: rest) :
    step s = .next ((s.withScript rest).writeReg r (BitVec.ofNat 32 v)) := by
  have hfits : valueFits (.reg r) v = true := decide_eq_true hv
  rw [step_of_script h]
  cases r with
  | cmd => exact absurd rfl hr
  | status | nbits | buflen | bitlen | length | outlen =>
    simp only [perform, locate_reg_number, hostWrite, hfits, if_true]

/-- Every command ends by setting STATUS.CODE to OK, CAPACITY or ILLEGAL (R29). -/
theorem exec_eq_setCode (i : Instr) (s : State) :
    ∃ (u : State) (c : StatusCode), c ≠ .none ∧ exec i s = .next (u.setCode c) := by
  cases i with
  | hide =>
    rcases execHide_cases s with ⟨_, h⟩ | ⟨_, _, h⟩ | ⟨_, _, h⟩
    · exact ⟨_, .illegal, by decide, h⟩
    · exact ⟨_, .capacity, by decide, h⟩
    · exact ⟨_, .ok, by decide, h⟩
  | reveal =>
    rcases execReveal_cases s with ⟨_, h⟩ | ⟨_, h⟩
    · exact ⟨_, .illegal, by decide, h⟩
    · exact ⟨_, .ok, by decide, h⟩

/-- A CMD write of any word ends by setting STATUS.CODE: its command does, or the word is illegal
(R29, R30, R83). -/
theorem runCommand_eq_setCode (w : Word) (s : State) :
    ∃ (u : State) (c : StatusCode), c ≠ .none ∧ runCommand w s = .next (u.setCode c) := by
  rcases runCommand_cases w s with ⟨i, _, hrun⟩ | ⟨e, _, hrun⟩
  · rw [hrun]
    exact exec_eq_setCode i s
  · exact ⟨s, .illegal, by decide, hrun⟩

/-- What a CMD write leaves has a STATUS.CODE other than NONE (R29). -/
theorem runCommand_code_ne_none {w : Word} {s t : State} (h : runCommand w s = .next t) :
    t.code ≠ .none := by
  obtain ⟨u, c, hc, hrun⟩ := runCommand_eq_setCode w s
  rw [← Host.Outcome.next.inj (hrun.symm.trans h), setCode_code]
  exact hc

/-- A step on a CMD write goes on, with STATUS.CODE other than NONE (R29, R212). -/
theorem step_commandWrite_code {s : State} {w : Word} {rest : List Move}
    (h : s.script = commandWrite w :: rest) : ∃ t, step s = .next t ∧ t.code ≠ .none := by
  obtain ⟨t, ht⟩ := runCommand_next w (s.withScript rest)
  exact ⟨t, (step_commandWrite h).trans ht, runCommand_code_ne_none ht⟩

/-- Only the platform's reset brings STATUS.CODE back to NONE: a CMD write sets it to something else, and
every other move leaves it alone (R29). -/
theorem step_code_ne_none {s t : State} (hcode : s.code ≠ .none)
    (hreset : s.script.head? ≠ some .platformReset) (h : step s = .next t) : t.code ≠ .none := by
  rcases step_cases s with ⟨_, hstep⟩ | ⟨mv, rest, hscript, hstep⟩
  · exact Host.Outcome.next.inj (hstep.symm.trans h) ▸ hcode
  · rcases perform_next (hstep.symm.trans h) with
      ⟨v, rfl⟩ | ⟨w, hrun⟩ | ⟨r, w, _, rfl⟩ | ⟨b, i, v, _, rfl⟩ | ⟨rfl, _⟩
    · simpa using hcode
    · exact runCommand_code_ne_none hrun
    · simpa using hcode
    · simpa using hcode
    · simp [hscript] at hreset

/-- A CODE other than NONE reads as 1, 2 or 3 (R29). -/
theorem StatusCode.toWord_of_ne_none {c : StatusCode} (h : c ≠ .none) :
    c.toWord = 1 ∨ c.toWord = 2 ∨ c.toWord = 3 := by
  cases c with
  | none => exact absurd rfl h
  | ok => exact .inl rfl
  | capacity => exact .inr (.inl rfl)
  | illegal => exact .inr (.inr rfl)

/-- Settles O10: the write by the two outcomes of `runCommand`, the read by `step_readReg` at CMD. -/
theorem cmdRegisterTriggersAndReadsZero : Obligations.CmdRegisterTriggersAndReadsZero := by
  unfold Obligations.CmdRegisterTriggersAndReadsZero
  intro s w rest
  refine ⟨fun hwrite => ?_, fun hread => step_readReg (r := .cmd) hread⟩
  have hstep : step s = runCommand w (s.withScript rest) := step_commandWrite hwrite
  refine ⟨fun i hi => ?_, fun e he => ?_, step_commandWrite_code hwrite⟩
  · simp only [hstep, runCommand, hi]
  · simp only [hstep, runCommand, he]
    rfl

/-- Settles O20: the layout by cases on CODE, and the steps by `step_writeReg` at STATUS,
`step_commandWrite_code` and `step_code_ne_none`. -/
theorem statusRegisterLayout : Obligations.StatusRegisterLayout := by
  unfold Obligations.StatusRegisterLayout
  refine ⟨rfl, fun s => ⟨?_, ?_, fun v rest hv h => ?_, fun w rest h => ?_, fun t => step_code_ne_none⟩⟩
  · show s.code.toWord.extractLsb' 2 30 = 0
    cases s.code <;> rfl
  · show s.code.toWord.extractLsb' 0 2 = _
    cases s.code <;> rfl
  · exact step_writeReg (r := .status) (by decide) hv h
  · obtain ⟨t, hstep, hcode⟩ := step_commandWrite_code h
    exact ⟨t, hstep, StatusCode.toWord_of_ne_none hcode⟩

end Sys2Proof.Machine
end

section
/-! PROOFS. The memories (spec/20_memory.md): the two views of the bit memory, what a command leaves of SRC,
and the bytes of the bit memory around the end of a REVEAL's result. -/

namespace Sys2Proof.Machine

/-- The host view of BIT from the unit's: BIT index `8k + u` is bit `7 - u` of byte `k` (R51). -/
theorem bit_mul_add (s : State) (k : Nat) {u : Nat} (hu : u < 8) :
    s.bit (8 * k + u) = (s.byte .bitb k).getLsbD (7 - u) := by
  have hdiv : (8 * k + u) / 8 = k := by omega
  have hmod : (8 * k + u) % 8 = u := by omega
  rw [State.bit, hdiv, hmod]

/-- The unit's view of BIT from the host's: bit `x` of byte `k` is BIT index `8k + (7 - x)` (R51). -/
theorem getLsbD_byte_bitb (s : State) (k : Nat) {x : Nat} (hx : x < 8) :
    (s.byte .bitb k).getLsbD x = s.bit (8 * k + (7 - x)) := by
  rw [bit_mul_add s k (by omega), show 7 - (7 - x) = x by omega]

/-- A byte of BITB is the value of its eight bits of BIT (R51, R68). -/
theorem toNat_byte_bitb (s : State) (k : Nat) : (s.byte .bitb k).toNat = val (s.bits (8 * k) 8) := by
  refine Nat.eq_of_testBit_eq fun x => ?_
  rw [BitVec.testBit_toNat, testBit_val_bits]
  by_cases hx : x < 8
  · rw [if_pos hx, getLsbD_byte_bitb s k hx]
  · rw [if_neg hx, BitVec.getLsbD_of_ge _ _ (not_lt.1 hx)]

/-- Two states with the same eight bits of BIT at a byte have the same byte there (R68). -/
theorem byte_bitb_eq_of_bit_eq {s t : State} {k : Nat}
    (h : ∀ u, u < 8 → t.bit (8 * k + u) = s.bit (8 * k + u)) : t.byte .bitb k = s.byte .bitb k := by
  refine BitVec.eq_of_getLsbD_eq fun x hx => ?_
  rw [getLsbD_byte_bitb t k hx, getLsbD_byte_bitb s k hx, h _ (by omega)]

/-- A one-byte access at an index that exists reaches that byte (R50, R55). -/
theorem locate_mem_of_lt {cap i : Nat} (b : Bank) (h : i < cap) :
    locate cap (.mem b) i 1 = .ok (.byte b i) := if_pos h

/-- A host read of a byte records its value and does nothing else (R55). -/
theorem step_readByte {s : State} {b : Bank} {i : Nat} {rest : List Move} (hi : i < s.cap)
    (h : s.script = .memRead (.mem b) i 1 :: rest) :
    step s = .next ((s.withScript rest).record (s.byte b i).toNat) := by
  rw [step_of_script h]
  simp only [perform, withScript_cap, locate_mem_of_lt b hi, hostRead, withScript_byte]

/-- Settles O24: the order of bits by `bit_mul_add`, the byte's value by `toNat_byte_bitb`, and the host's
read by `step_readByte`. -/
theorem bitMemoryIsMostSignificantFirst : Obligations.BitMemoryIsMostSignificantFirst := by
  unfold Obligations.BitMemoryIsMostSignificantFirst
  refine fun s k => ⟨fun _ => rfl, toNat_byte_bitb s k, fun _ => bit_mul_add s k, fun rest hk h => ?_⟩
  rw [step_readByte hk h, toNat_byte_bitb]

/-- The lanes of a HIDE write no sample of SRC (R67). -/
@[simp] theorem byte_hideLanes_src (s : State) (i : Nat) :
    (hideLanes s).byte .src i = s.byte .src i := by
  rw [hideLanes_frame]; rfl

/-- The lanes of a REVEAL write no sample of SRC (R67). -/
@[simp] theorem byte_revealLanes_src (s : State) (i : Nat) :
    (revealLanes s).byte .src i = s.byte .src i := by
  rw [revealLanes_frame]; rfl

/-- Neither command writes a sample of SRC, whatever its outcome (R67). -/
theorem exec_byte_src {c : Instr} {s t : State} (h : exec c s = .next t) (i : Nat) :
    t.byte .src i = s.byte .src i := by
  cases c with
  | hide =>
    rcases execHide_cases s with ⟨_, hs⟩ | ⟨_, _, hs⟩ | ⟨_, _, hs⟩ <;>
      (obtain rfl := Host.Outcome.next.inj (hs.symm.trans h); simp)
  | reveal =>
    rcases execReveal_cases s with ⟨_, hs⟩ | ⟨_, hs⟩ <;>
      (obtain rfl := Host.Outcome.next.inj (hs.symm.trans h); simp)

/-- A CMD write of any word, command or not, writes no sample of SRC (R67, R83). -/
theorem runCommand_byte_src {w : Word} {s t : State} (h : runCommand w s = .next t) (i : Nat) :
    t.byte .src i = s.byte .src i := by
  rcases runCommand_cases w s with ⟨c, _, hrun⟩ | ⟨e, _, hrun⟩
  · exact exec_byte_src (hrun.symm.trans h) i
  · obtain rfl := Host.Outcome.next.inj (hrun.symm.trans h)
    exact setCode_byte s _ _ _

/-- Settles O16: the step is `runCommand` on the state with the move taken off the script, and that writes
no sample of SRC. -/
theorem commandsNeverWriteSrc : Obligations.CommandsNeverWriteSrc := by
  unfold Obligations.CommandsNeverWriteSrc
  intro s t w rest hscript hstep i
  rw [runCommand_byte_src ((step_commandWrite hscript).symm.trans hstep) i, withScript_byte]

/-- The length of REVEAL's result fits OUTLEN when the buffer exists: it is at most `8 * SAMPLE_CAP`
(R25, R127). -/
theorem resultCount_lt_of_bufferLen_le {s : State} (hInv : s.Inv) (hb : s.bufferLen ≤ s.cap) :
    resultCount s.requested s.width s.bufferLen < 2 ^ 32 := by
  obtain ⟨⟨_, hcap⟩, _⟩ := hInv
  calc resultCount s.requested s.width s.bufferLen
      ≤ samplesRead s.requested s.width s.bufferLen * s.width := resultCount_le _ _ _ (width_pos s)
    _ ≤ s.cap * 8 := Nat.mul_le_mul ((samplesRead_le _ _ _).trans hb) (width_le s)
    _ < 2 ^ 32 := by omega

/-- A REVEAL that ends with OK has passed its check and left its lanes, OUTLEN and STATUS.CODE (R120). -/
theorem execReveal_ok {s t : State} (h : execReveal s = .next t) (hok : t.code = .ok) :
    s.bufferLen ≤ s.cap ∧
      t = ((revealLanes s).setOutlen (resultCount s.requested s.width s.bufferLen)).setCode .ok := by
  rcases execReveal_cases s with ⟨_, hs⟩ | ⟨hb, hs⟩
  · obtain rfl := Host.Outcome.next.inj (hs.symm.trans h)
    cases hok
  · exact ⟨hb, Host.Outcome.next.inj (h.symm.trans hs)⟩

/-- OUTLEN after a REVEAL that ends with OK is the exact length of its result (R25, R127). -/
theorem resultLen_of_execReveal_ok {s t : State} (hInv : s.Inv) (h : execReveal s = .next t)
    (hok : t.code = .ok) : t.resultLen = resultCount s.requested s.width s.bufferLen := by
  obtain ⟨hb, rfl⟩ := execReveal_ok h hok
  exact Nat.mod_eq_of_lt (resultCount_lt_of_bufferLen_le hInv hb)

/-- What a REVEAL that ends with OK leaves in BIT: below OUTLEN the sample bits it gathers, from OUTLEN on
what was there (R125, R127, R128). -/
theorem bit_of_execReveal_ok {s t : State} (hInv : s.Inv) (h : execReveal s = .next t)
    (hok : t.code = .ok) (j : Nat) :
    t.bit j = if j < t.resultLen
      then (s.byte .src (j / s.width)).getLsbD (s.width - 1 - j % s.width) else s.bit j := by
  rw [resultLen_of_execReveal_ok hInv h hok]
  obtain ⟨_, rfl⟩ := execReveal_ok h hok
  rw [setCode_bit, setOutlen_bit, bit_revealLanes]

/-- Settles O44: `bit_of_execReveal_ok` gives every bit of BIT, and the clauses about bytes read it through
`getLsbD_byte_bitb`: the index of a bit lies below OUTLEN or not. -/
theorem revealDoesNotZeroFill : Obligations.RevealDoesNotZeroFill := by
  unfold Obligations.RevealDoesNotZeroFill
  intro s t hInv h hok
  have hbit := bit_of_execReveal_ok hInv h hok
  have hkeep : ∀ j, t.resultLen ≤ j → t.bit j = s.bit j := fun j hj => by
    rw [hbit, if_neg (not_lt.2 hj)]
  refine ⟨hbit, fun x j hlo hx _ hj => ?_, fun x hx => ?_, fun k hk => ?_⟩
  · have hlt : j < t.resultLen := by omega
    refine ⟨hlt, ?_⟩
    rw [getLsbD_byte_bitb t _ hx, Nat.mul_comm, ← hj, hbit, if_pos hlt]
  · have hx8 : x < 8 := by omega
    rw [getLsbD_byte_bitb t _ hx8, getLsbD_byte_bitb s _ hx8]
    exact hkeep _ (by omega)
  · exact byte_bitb_eq_of_bit_eq fun u _ => hkeep _ (by omega)

end Sys2Proof.Machine
end

section
/-! PROOFS. The decoder's answers (spec/30_encoding.md R80 to R83): a command for its one word, which is the
word whose two fields are the command's, and an error for every other word. -/

namespace Sys2Proof.Machine

/-- A word is its field ZERO above its field OP (R80). -/
theorem zeroField_append_opField (w : Word) : w.zeroField ++ w.opField = w :=
  BitVec.extractLsb'_append_extractLsb' (w := 28) (len := 4)

/-- The word of a command has ZERO clear and the command's OP (R80, R81). -/
theorem encode_fields (i : Instr) : (encode i).zeroField = 0 ∧ (encode i).opField = opcodeOf i := by
  cases i with
  | hide => exact Laws.WordFields.hide.2
  | reveal => exact Laws.WordFields.reveal.2

/-- The two fields of a word determine it, so a command's word is the one word with its fields (R80). -/
theorem eq_encode_iff (w : Word) (i : Instr) :
    w = encode i ↔ w.zeroField = 0 ∧ w.opField = opcodeOf i := by
  constructor
  · rintro rfl
    exact encode_fields i
  · rintro ⟨hzero, hop⟩
    rw [← zeroField_append_opField w, hzero, hop, encode]

/-- The decoder names a command for the command's own word only (R81). -/
theorem decode_eq_ok_iff (w : Word) (i : Instr) : decode w = .ok i ↔ w = encode i := by
  rcases decode_cases w with ⟨rfl, _⟩ | ⟨rfl, _⟩ | ⟨hhide, hreveal, e, he⟩
  · cases i <;> decide
  · cases i <;> decide
  · rw [he]
    cases i with
    | hide => exact iff_of_false nofun hhide
    | reveal => exact iff_of_false nofun hreveal

/-- The decoder names no command for every word but HIDE's and REVEAL's (R83). -/
theorem exists_decode_eq_error_iff (w : Word) :
    (∃ e, decode w = .error e) ↔ w ≠ 0x00000001#32 ∧ w ≠ 0x00000002#32 := by
  rcases decode_cases w with ⟨rfl, h⟩ | ⟨rfl, h⟩ | ⟨hhide, hreveal, he⟩
  · exact iff_of_false (fun ⟨_, he⟩ => nomatch h.symm.trans he) fun hne => hne.1 rfl
  · exact iff_of_false (fun ⟨_, he⟩ => nomatch h.symm.trans he) fun hne => hne.2 rfl
  · exact iff_of_true he ⟨hhide, hreveal⟩

/-- Settles O7: `decode_eq_ok_iff` for the commands, read by fields through `eq_encode_iff`, and
`exists_decode_eq_error_iff` for the rest. -/
theorem oneWordPerCommand : Obligations.OneWordPerCommand := by
  unfold Obligations.OneWordPerCommand
  exact fun w => ⟨fun i => (decode_eq_ok_iff w i).trans (eq_encode_iff w i), decode_eq_ok_iff w .hide,
    decode_eq_ok_iff w .reveal, exists_decode_eq_error_iff w⟩

/-- A step on a CMD write of an illegal word sets ILLEGAL and nothing else (R83, R162). -/
theorem step_commandWrite_of_error {s : State} {w : Word} {rest : List Move} {e : IllegalWord}
    (h : s.script = commandWrite w :: rest) (he : decode w = .error e) :
    step s = .next ((s.withScript rest).setCode .illegal) := by
  rw [step_commandWrite h, runCommand, he, raise_eq_setCode]

/-- Settles O11: `exists_decode_eq_error_iff` makes the word illegal, and `step_commandWrite_of_error` is its
step. -/
theorem illegalWordSetsIllegalOnly : Obligations.IllegalWordSetsIllegalOnly := by
  unfold Obligations.IllegalWordSetsIllegalOnly
  intro s w rest hscript hhide hreveal
  obtain ⟨e, he⟩ := (exists_decode_eq_error_iff w).2 ⟨hhide, hreveal⟩
  exact ⟨_, step_commandWrite_of_error hscript he, rfl, rfl⟩

end Sys2Proof.Machine
end

section
/-! PROOFS. The chunks of the bit string (spec/40_hide.md R104): how many there are, how long each is, and that
in order they are the string. -/

namespace Sys2Proof.Machine

/-- Slot `i` has a chunk exactly when characters are left for it (R104). -/
theorem lt_chunkCount_iff {n : Nat} (hn : 1 ≤ n) (m i : Nat) : i < chunkCount m n ↔ i * n < m := by
  rw [chunkCount_eq m n hn, ← Nat.succ_le_iff, Nat.le_div_iff_mul_le hn, Nat.succ_mul]
  omega

/-- When the string fits the buffer, every chunk has a slot (R103). -/
theorem chunkCount_le_of_fits {m n b : Nat} (hn : 1 ≤ n) (h : m ≤ b * n) : chunkCount m n ≤ b :=
  not_lt.1 fun hlt => absurd ((lt_chunkCount_iff hn m b).1 hlt) (not_lt.2 h)

/-- All chunks together reach the end of the string (R104). -/
theorem le_chunkCount_mul {n : Nat} (hn : 1 ≤ n) (m : Nat) : m ≤ chunkCount m n * n :=
  not_lt.1 fun hlt => lt_irrefl _ ((lt_chunkCount_iff hn m _).2 hlt)

/-- A chunk has at most `n` characters (R104). -/
theorem chunkLen_le (m n i : Nat) : chunkLen m n i ≤ n := Nat.min_le_left _ _

/-- A chunk with another one after it is full (R104). -/
theorem chunkLen_of_le {m n i : Nat} (h : (i + 1) * n ≤ m) : chunkLen m n i = n := by
  rw [Nat.succ_mul] at h
  exact Nat.min_eq_left (by omega)

/-- The chunk after which nothing is left has the rest of the string (R104). -/
theorem chunkLen_of_ge {m n i : Nat} (h : m ≤ (i + 1) * n) : chunkLen m n i = m - i * n := by
  rw [Nat.succ_mul] at h
  exact Nat.min_eq_right (by omega)

/-- By a positive divisor `fmod` is the remainder of the division (R13). -/
theorem fmod_natCast (a n : Nat) : fmod a n = ((a % n : Nat) : Int) := by
  rw [fmod, Int.fdiv_eq_ediv_of_nonneg _ (Int.natCast_nonneg n), ← Int.emod_def, Int.natCast_emod]

/-- The last chunk ends where the string does (R104). -/
theorem mul_add_chunkLen {m n i : Nat} (hlt : i * n < m) (hend : m ≤ (i + 1) * n) :
    i * n + chunkLen m n i = m := by
  rw [chunkLen_of_ge hend]
  omega

/-- The last chunk has `n` characters when `n` divides the string's length, and `fmod` of it otherwise
(R104). -/
theorem chunkLen_last {m n i : Nat} (hlt : i * n < m) (hend : m ≤ (i + 1) * n) :
    (chunkLen m n i : Int) = if n ∣ m then (n : Int) else fmod m n := by
  have hsum := mul_add_chunkLen hlt hend
  have hle := chunkLen_le m n i
  generalize chunkLen m n i = k at hsum hle
  subst hsum
  have hdvd : n ∣ i * n + k ↔ n ∣ k := (Nat.dvd_add_iff_right (Nat.dvd_mul_left n i)).symm
  split
  case isTrue h =>
    have : n ≤ k := Nat.le_of_dvd (by omega) (hdvd.1 h)
    omega
  case isFalse h =>
    have hne : k ≠ n := fun he => h (hdvd.2 (he ▸ dvd_rfl))
    rw [fmod_natCast, Nat.mul_add_mod_self_right, Nat.mod_eq_of_lt (by omega)]

/-- `BITS(a, j + k)` is `BITS(a, j)` and then `BITS(a + j, k)` (R16). -/
theorem bits_add (s : State) (a j k : Nat) : s.bits a (j + k) = s.bits a j ++ s.bits (a + j) k := by
  simp only [State.bits, List.range_add, List.map_append, List.map_map, Function.comp_def, Nat.add_assoc]

/-- `BITS(a, k)` depends on the `k` bits from `a` on only (R16). -/
theorem bits_congr {u v : State} {a k : Nat} (h : ∀ t, t < k → u.bit (a + t) = v.bit (a + t)) :
    u.bits a k = v.bits a k :=
  List.map_congr_left fun t ht => h t (List.mem_range.1 ht)

/-- The first `k` chunks in order are the first `k * n` characters, or the whole string where it is shorter
(R104). -/
theorem flatMap_chunks (s : State) (m n k : Nat) :
    ((List.range k).flatMap fun i => s.bits (i * n) (chunkLen m n i)) = s.bits 0 (min (k * n) m) := by
  induction k with
  | zero => simp [State.bits]
  | succ k ih =>
    rw [List.range_succ, List.flatMap_append, ih, List.flatMap_singleton]
    rcases le_total (k * n) m with hle | hge
    · have hlen : min ((k + 1) * n) m = k * n + chunkLen m n k := by
        rw [Nat.succ_mul, chunkLen]; omega
      rw [hlen, bits_add, Nat.min_eq_left hle, Nat.zero_add]
    · have hnone : chunkLen m n k = 0 := by rw [chunkLen]; omega
      rw [hnone, Nat.min_eq_right hge, Nat.succ_mul, Nat.min_eq_right (by omega)]
      simp [State.bits]

/-- Settles O32: the lengths by the place of chunk `i` against the end of the string, which `lt_chunkCount_iff`
gives, and the concatenation by `flatMap_chunks` at the last chunk. -/
theorem chunksPartitionTheString : Obligations.ChunksPartitionTheString := by
  unfold Obligations.ChunksPartitionTheString
  intro s
  have hn := width_pos s
  refine ⟨fun i hi => ?_, ?_, fun hm => ?_⟩
  · have hlt := (lt_chunkCount_iff hn _ _).1 hi
    refine ⟨?_, chunkLen_le _ _ _, fun hnext => ?_, fun hlast => ?_⟩
    · rw [chunkLen]; omega
    · exact chunkLen_of_le ((lt_chunkCount_iff hn _ _).1 hnext).le
    · have hend : s.bitCount ≤ (i + 1) * s.width := hlast ▸ le_chunkCount_mul hn _
      exact ⟨mul_add_chunkLen hlt hend, chunkLen_last hlt hend⟩
  · rw [flatMap_chunks, Nat.min_eq_right (le_chunkCount_mul hn _)]
  · exact Nat.le_zero.1 (chunkCount_le_of_fits hn (by omega))

end Sys2Proof.Machine
end

section
/-! PROOFS. HIDE (spec/40_hide.md R102 to R108, R113): its outcomes, its frame, and the byte each lane
writes. -/

namespace Sys2Proof.Machine

/-- A buffer longer than the memory: HIDE ends with ILLEGAL (R102). -/
theorem exec_hide_of_bufferTooLong {s : State} (hb : s.cap < s.bufferLen) :
    exec .hide s = .next (s.setCode .illegal) := by
  rcases execHide_cases s with ⟨_, h⟩ | ⟨hb', _⟩ | ⟨hb', _⟩
  · exact h
  · omega
  · omega

/-- A string longer than the buffer holds: HIDE ends with CAPACITY (R103). -/
theorem exec_hide_of_stringTooLong {s : State} (hb : s.bufferLen ≤ s.cap)
    (hm : s.bufferLen * s.width < s.bitCount) : exec .hide s = .next (s.setCode .capacity) := by
  rcases execHide_cases s with ⟨hb', _⟩ | ⟨_, _, h⟩ | ⟨_, hm', _⟩
  · omega
  · exact h
  · omega

/-- Otherwise HIDE runs its lanes and ends with OK (R108). -/
theorem exec_hide_of_fits {s : State} (hb : s.bufferLen ≤ s.cap)
    (hm : s.bitCount ≤ s.bufferLen * s.width) : exec .hide s = .next ((hideLanes s).setCode .ok) := by
  rcases execHide_cases s with ⟨hb', _⟩ | ⟨_, hm', _⟩ | ⟨_, _, h⟩
  · omega
  · omega
  · exact h

/-- Settles O30: one lemma per outcome. -/
theorem hideHasThreeOutcomes : Obligations.HideHasThreeOutcomes := by
  unfold Obligations.HideHasThreeOutcomes
  exact fun s => ⟨exec_hide_of_bufferTooLong, exec_hide_of_stringTooLong,
    fun hb hm => ⟨_, exec_hide_of_fits hb hm, rfl⟩⟩

/-- The lanes of a HIDE leave DST alone from the end of the buffer on (R107). -/
theorem byte_hideLanes_of_ge {s : State} (hm : s.bitCount ≤ s.bufferLen * s.width) {i : Nat}
    (hi : s.bufferLen ≤ i) : (hideLanes s).byte .dst i = s.byte .dst i := by
  have := chunkCount_le_of_fits (width_pos s) hm
  rw [byte_hideLanes s hm, if_neg (by omega), if_neg (by omega)]

/-- The lanes of a HIDE write no byte of the bit memory (R107). -/
@[simp] theorem byte_hideLanes_bitb (s : State) (i : Nat) : (hideLanes s).byte .bitb i = s.byte .bitb i := by
  rw [hideLanes_frame]; rfl

/-- The lanes of a HIDE write no register (R107). -/
@[simp] theorem readReg_hideLanes (s : State) (r : RegName) : (hideLanes s).readReg r = s.readReg r := by
  rw [hideLanes_frame]; cases r <;> rfl

@[simp] theorem hideLanes_cap (s : State) : (hideLanes s).cap = s.cap := by
  rw [hideLanes_frame]
@[simp] theorem hideLanes_epoch (s : State) : (hideLanes s).epoch = s.epoch := by
  rw [hideLanes_frame]
@[simp] theorem hideLanes_script (s : State) : (hideLanes s).script = s.script := by
  rw [hideLanes_frame]
@[simp] theorem hideLanes_readings (s : State) : (hideLanes s).readings = s.readings := by
  rw [hideLanes_frame]

/-- A write of STATUS.CODE is seen in no other register (R29). -/
theorem readReg_setCode_of_ne (s : State) (c : StatusCode) {r : RegName} (hr : r ≠ .status) :
    (s.setCode c).readReg r = s.readReg r := by
  cases r with
  | status => exact absurd rfl hr
  | cmd | nbits | buflen | bitlen | length | outlen => rfl

/-- A HIDE ends with a write of STATUS.CODE alone, or with one on top of its lanes (R107, R168). -/
theorem exec_hide_eq_setCode {s t : State} (h : exec .hide s = .next t) :
    (∃ c, c ≠ .ok ∧ t = s.setCode c) ∨
    (s.bitCount ≤ s.bufferLen * s.width ∧ t = (hideLanes s).setCode .ok) := by
  rcases execHide_cases s with ⟨_, hs⟩ | ⟨_, _, hs⟩ | ⟨_, hm, hs⟩
  · exact .inl ⟨_, by decide, Host.Outcome.next.inj (h.symm.trans hs)⟩
  · exact .inl ⟨_, by decide, Host.Outcome.next.inj (h.symm.trans hs)⟩
  · exact .inr ⟨hm, Host.Outcome.next.inj (h.symm.trans hs)⟩

/-- Settles O29: an error writes STATUS.CODE alone, and the lanes of a success write DST below the buffer's
end alone. -/
theorem hideLeavesAllElseAlone : Obligations.HideLeavesAllElseAlone := by
  unfold Obligations.HideLeavesAllElseAlone
  intro s t h
  rcases exec_hide_eq_setCode h with ⟨c, _, rfl⟩ | ⟨hm, rfl⟩
  · exact ⟨fun r hr => readReg_setCode_of_ne s c hr, rfl, rfl, rfl, rfl, setCode_byte s c _,
      setCode_byte s c _, fun i _ => setCode_byte s c _ i⟩
  · refine ⟨fun r hr => ?_, hideLanes_cap s, hideLanes_epoch s, hideLanes_script s, hideLanes_readings s,
      fun i => ?_, fun i => ?_, fun i hi => ?_⟩
    · rw [readReg_setCode_of_ne _ _ hr, readReg_hideLanes]
    · rw [setCode_byte, byte_hideLanes_src]
    · rw [setCode_byte, byte_hideLanes_bitb]
    · rw [setCode_byte, byte_hideLanes_of_ge hm (hi rfl)]

/-- The byte that lane `i` of a HIDE writes: `SRC[i]` with chunk `i` in its low bits, or `SRC[i]` itself beyond
the chunks (R105, R106). `hideLane_eq` ties it to the model's lanes. -/
def hideLaneByte (n m i : Nat) (u : State) : Byte :=
  if i * n < m then
    replaceLow (u.byte .src i) (chunkLen m n i) (val (u.bits (i * n) (chunkLen m n i)))
  else u.byte .src i

/-- A lane with characters left for it writes its chunk into the sample (R105). -/
theorem hideLaneByte_of_lt {n m i : Nat} (h : i * n < m) (u : State) :
    hideLaneByte n m i u =
      replaceLow (u.byte .src i) (chunkLen m n i) (val (u.bits (i * n) (chunkLen m n i))) := if_pos h

/-- A lane beyond the chunks copies the sample (R106). -/
theorem hideLaneByte_of_ge {n m i : Nat} (h : m ≤ i * n) (u : State) :
    hideLaneByte n m i u = u.byte .src i := if_neg (not_lt.2 h)

/-- A lane of HIDE writes its byte to its own slot of DST and does nothing else (R109). -/
theorem hideLane_eq (n m i : Nat) (u : State) :
    hideLane n m i u = u.setByte .dst i (hideLaneByte n m i u) := by
  unfold hideLane hideLaneByte
  split <;> rfl

/-- What a lane writes does not rest on DST (R109). -/
@[simp] theorem hideLaneByte_setByte_dst (n m i j : Nat) (v : Byte) (u : State) :
    hideLaneByte n m i (u.setByte .dst j v) = hideLaneByte n m i u := rfl

/-- What lane `i` writes rests on SRC[i] and the bits of chunk `i` only (R109). -/
theorem hideLaneByte_congr {n m i : Nat} {u v : State} (hsrc : u.byte .src i = v.byte .src i)
    (hbit : ∀ x, i * n ≤ x → x < min (i * n + n) m → u.bit x = v.bit x) :
    hideLaneByte n m i u = hideLaneByte n m i v := by
  have hbits : u.bits (i * n) (chunkLen m n i) = v.bits (i * n) (chunkLen m n i) :=
    bits_congr fun t ht => hbit _ (by omega) (by rw [chunkLen] at ht; omega)
  rw [hideLaneByte, hideLaneByte, hsrc, hbits]

/-- A slot of the buffer holds its lane's byte after the lanes of a HIDE (R105, R106). -/
theorem byte_hideLanes_of_lt {s : State} (hm : s.bitCount ≤ s.bufferLen * s.width) {i : Nat}
    (hi : i < s.bufferLen) :
    (hideLanes s).byte .dst i = hideLaneByte s.width s.bitCount i s := by
  rw [byte_hideLanes s hm, if_pos hi, hideLaneByte]
  simp only [lt_chunkCount_iff (width_pos s)]

/-- Replacing the `k` low bits of a sample, as a value: what they were worth is taken off, the chunk put in
(R105). -/
theorem toNat_replaceLow {v : Byte} {k c : Nat} (hk : k ≤ 8) (hc : c < 2 ^ k) :
    (replaceLow v k c).toNat = v.toNat - low v.toNat k + c := by
  have hhigh : v.toNat - low v.toNat k = 2 ^ k * (v.toNat / 2 ^ k) := by
    have := Nat.div_add_mod v.toNat (2 ^ k)
    rw [low]; omega
  rw [hhigh]
  refine Nat.eq_of_testBit_eq fun b => ?_
  rw [BitVec.testBit_toNat, getLsbD_replaceLow v k c b hk hc, Nat.testBit_two_pow_mul_add _ hc]
  split
  · rfl
  · rw [Nat.testBit_div_two_pow, BitVec.testBit_toNat]
    congr 1; omega

/-- The value of `BITS(a, k)` has at most `k` bits (R15). -/
theorem val_bits_lt (s : State) (a k : Nat) : val (s.bits a k) < 2 ^ k := by
  simpa using val_lt (s.bits a k)

/-- Settles O28: the slots of the buffer hold their lanes' bytes, read bit by bit through
`getLsbD_replaceLow` and as a value through `toNat_replaceLow`. -/
theorem hideScattersTheChunks : Obligations.HideScattersTheChunks := by
  unfold Obligations.HideScattersTheChunks
  intro s hb hm
  refine ⟨_, exec_hide_of_fits hb hm, rfl, fun i hi => ?_, fun i hge hib => ?_⟩
  · have hib : i < s.bufferLen := Nat.lt_of_mul_lt_mul_right (hi.trans_le hm)
    rw [setCode_byte, byte_hideLanes_of_lt hm hib, hideLaneByte_of_lt hi]
    have hlen : min s.width (s.bitCount - i * s.width) = chunkLen s.bitCount s.width i := rfl
    rw [hlen]
    set k := chunkLen s.bitCount s.width i
    have hk : k ≤ 8 := (chunkLen_le _ _ _).trans (width_le s)
    have hc := val_bits_lt s (i * s.width) k
    refine ⟨fun u hu => ?_, fun u hu => ?_, toNat_replaceLow hk hc⟩
    · rw [getLsbD_replaceLow _ _ _ _ hk hc, if_pos (by omega), testBit_val_bits, if_pos (by omega)]
      congr 2; omega
    · rw [getLsbD_replaceLow _ _ _ _ hk hc, if_neg (by omega)]
  · rw [setCode_byte, byte_hideLanes_of_lt hm hib, hideLaneByte_of_ge hge]

/-- At width one a chunk is the one bit it is made of, and the sample's lowest bit becomes it (R113). -/
theorem replaceLow_one (v : Byte) (s : State) (j : Nat) :
    replaceLow v 1 (val (s.bits j 1)) = (v &&& 0xFE#8) ||| (if s.bit j then 1#8 else 0#8) := by
  have hval : val (s.bits j 1) = (s.bit j).toNat := by simp [State.bits, val]
  rw [hval]
  cases s.bit j <;> rfl

/-- Settles O34: at width one every chunk is the next one character, written by `replaceLow_one`. -/
theorem hideAtWidthOne : Obligations.HideAtWidthOne := by
  unfold Obligations.HideAtWidthOne
  intro s hw hb hm
  have hlen : ∀ i, i < s.bitCount → chunkLen s.bitCount 1 i = 1 := fun i hi =>
    chunkLen_of_le (by omega)
  have hfits : s.bitCount ≤ s.bufferLen * s.width := by rwa [hw, Nat.mul_one]
  refine ⟨?_, fun i hi => ?_, _, exec_hide_of_fits hb hfits, rfl, fun i hi => ?_⟩
  · rw [hw, chunkCount_eq _ _ le_rfl]; omega
  · rw [hw, hlen i hi]
  · rw [setCode_byte, byte_hideLanes_of_lt hfits (by omega), hw, hideLaneByte_of_lt (by omega), hlen i hi,
      Nat.mul_one, replaceLow_one]

end Sys2Proof.Machine
end

section
/-! PROOFS. The order of HIDE's lanes (spec/40_hide.md R109): any two of them can be exchanged, so a fold over
the slots of the buffer is the same for every order. -/

namespace Sys2Proof.Machine

/-- Writes at two different indices of a memory can be exchanged; this needs no canonical form. -/
theorem set_comm (m : Memory) {i j : Nat} (hij : i ≠ j) (v w : Byte) :
    (m.set i v).set j w = (m.set j w).set i v := by
  wlog hlt : i < j generalizing i j v w
  · exact (this hij.symm w v (by omega)).symm
  induction m with
  | nil => simp [Memory.set, hij.symm, hlt, hlt.not_gt]
  | cons c rest ih =>
    obtain ⟨a, x⟩ := c
    rcases Nat.lt_trichotomy j a with hj | rfl | hj
    · simp [Memory.set, hj, hlt, hij.symm, hlt.not_gt, hlt.trans hj]
    · simp [Memory.set, hlt, hij.symm, hlt.not_gt]
    · rcases Nat.lt_trichotomy i a with hi | rfl | hi
      · simp [Memory.set, hi, hj.ne', hj.not_gt, hij.symm, hlt.not_gt]
      · simp [Memory.set, hij.symm, hlt.not_gt]
      · simp [Memory.set, hi.ne', hi.not_gt, hj.ne', hj.not_gt, ih]

/-- Two lanes of HIDE can be exchanged: they write different slots, and neither reads what the other writes
(R109). -/
theorem hideLane_comm (n m i j : Nat) (u : State) :
    hideLane n m j (hideLane n m i u) = hideLane n m i (hideLane n m j u) := by
  by_cases hij : i = j
  · rw [hij]
  · simp only [hideLane_eq, hideLaneByte_setByte_dst]
    exact congrArg (fun d => { u with dst := d }) (set_comm u.dst hij _ _)

/-- The loop of the pseudocode is a fold over its range. -/
theorem forRange_eq_foldl {σ : Type} (lo count : Nat) (body : Nat → σ → σ) (s : σ) :
    forRange lo count body s = (List.range' lo count).foldl (fun u i => body i u) s := by
  induction count with
  | zero => rfl
  | succ k ih => rw [forRange_succ, ih, List.range'_1_concat, List.foldl_append]; rfl

/-- Two loop bodies that do the same in every round make the same loop. -/
theorem forRange_congr {σ : Type} {lo count : Nat} {f g : Nat → σ → σ} (s : σ)
    (h : ∀ i, lo ≤ i → i < lo + count → f i = g i) : forRange lo count f s = forRange lo count g s := by
  rw [forRange_eq_foldl, forRange_eq_foldl]
  refine List.foldl_ext _ _ _ fun u i hi => ?_
  obtain ⟨hlo, hhi⟩ := List.mem_range'_1.1 hi
  rw [h i hlo hhi]

/-- The lanes of a HIDE are `hideLane` over the slots of the buffer in rising order (R100, R109). -/
theorem hideLanes_eq_foldl {s : State} (hm : s.bitCount ≤ s.bufferLen * s.width) :
    hideLanes s = (List.range s.bufferLen).foldl (fun u i => hideLane s.width s.bitCount i u) s := by
  have hn := width_pos s
  have hq := chunkCount_le_of_fits hn hm
  have hsplit : List.range s.bufferLen = List.range' 0 (chunkCount s.bitCount s.width) ++
      List.range' (chunkCount s.bitCount s.width) (s.bufferLen - chunkCount s.bitCount s.width) := by
    have happend := List.range'_append_1 (s := 0) (m := chunkCount s.bitCount s.width)
      (n := s.bufferLen - chunkCount s.bitCount s.width)
    rw [Nat.zero_add, Nat.add_sub_cancel' hq] at happend
    rw [List.range_eq_range', happend]
  have hchunk : ∀ i, 0 ≤ i → i < 0 + chunkCount s.bitCount s.width →
      hideChunkLane s.width s.bitCount i = hideLane s.width s.bitCount i := fun i _ hi =>
    funext fun u => (if_pos ((lt_chunkCount_iff hn _ _).1 (by omega))).symm
  have hcopy : ∀ i, chunkCount s.bitCount s.width ≤ i →
      i < chunkCount s.bitCount s.width + (s.bufferLen - chunkCount s.bitCount s.width) →
      hideCopyLane i = hideLane s.width s.bitCount i := fun i hi _ =>
    funext fun u => (if_neg (mt (lt_chunkCount_iff hn _ _).2 (by omega))).symm
  rw [hsplit, List.foldl_append, ← forRange_eq_foldl, ← forRange_eq_foldl, hideLanes,
    forRange_congr s hchunk, forRange_congr _ hcopy]

/-- Settles O33: the lanes in rising order are a fold, which `hideLane_comm` makes the same for every
permutation; what one lane does is `hideLane_eq`. -/
theorem hideIsTheSameInEveryLaneOrder : Obligations.HideIsTheSameInEveryLaneOrder := by
  unfold Obligations.HideIsTheSameInEveryLaneOrder
  refine ⟨fun s order _ hb hm hperm => ?_, fun n m i u => ⟨?_, fun i' hi => ?_⟩,
    fun n m i u v hsrc hbit => ?_⟩
  · rw [exec_hide_of_fits hb hm, hideLanes_eq_foldl hm,
      hperm.foldl_eq' fun i _ j _ u => hideLane_comm _ _ i j u]
  · rw [hideLane_eq]; rfl
  · rw [hideLane_eq, byte_setByte, if_neg fun h => hi h.2.symm]
  · rw [hideLane_eq, hideLane_eq, byte_setByte_same, byte_setByte_same, hideLaneByte_congr hsrc hbit]

end Sys2Proof.Machine
end

section
/-! PROOFS. NBITS reaches a command through its effective width alone (spec/40_hide.md R101,
spec/41_reveal.md R121). -/

namespace Sys2Proof.Machine

/-- A buffer longer than the memory: REVEAL ends with ILLEGAL (R122). -/
theorem exec_reveal_of_bufferTooLong {s : State} (hb : s.cap < s.bufferLen) :
    exec .reveal s = .next (s.setCode .illegal) := by
  rcases execReveal_cases s with ⟨_, h⟩ | ⟨hb', _⟩
  · exact h
  · omega

/-- Otherwise REVEAL runs its lanes, writes OUTLEN and ends with OK (R122, R127). -/
theorem exec_reveal_of_fits {s : State} (hb : s.bufferLen ≤ s.cap) :
    exec .reveal s =
      .next (((revealLanes s).setOutlen (resultCount s.requested s.width s.bufferLen)).setCode .ok) := by
  rcases execReveal_cases s with ⟨hb', _⟩ | ⟨_, h⟩
  · omega
  · exact h

/-- A loop whose rounds commute with a map of the state commutes with it. -/
theorem forRange_comm {σ : Type} (g : σ → σ) (lo count : Nat) {body : Nat → σ → σ}
    (h : ∀ i u, body i (g u) = g (body i u)) (s : σ) :
    forRange lo count body (g s) = g (forRange lo count body s) := by
  induction count with
  | zero => rfl
  | succ k ih => rw [forRange_succ, forRange_succ, ih, h]

/-- A lane of REVEAL leaves whatever word NBITS holds where it is. -/
theorem revealLane_writeReg_nbits (n outlen i : Nat) (x : Word) (u : State) :
    revealLane n outlen i (u.writeReg .nbits x) = (revealLane n outlen i u).writeReg .nbits x := by
  refine forRange_comm (fun v : State => v.writeReg .nbits x) 0 n (fun t v => ?_) u
  unfold revealBit
  simp only
  split <;> rfl

/-- A chunk lane of HIDE leaves whatever word NBITS holds where it is. -/
theorem hideChunkLane_writeReg_nbits (n m i : Nat) (x : Word) (u : State) :
    hideChunkLane n m i (u.writeReg .nbits x) = (hideChunkLane n m i u).writeReg .nbits x := rfl

/-- A copy lane of HIDE leaves whatever word NBITS holds where it is. -/
theorem hideCopyLane_writeReg_nbits (i : Nat) (x : Word) (u : State) :
    hideCopyLane i (u.writeReg .nbits x) = (hideCopyLane i u).writeReg .nbits x := rfl

/-- The lanes of a HIDE are the same for two words of NBITS with one effective width (R101). -/
theorem hideLanes_writeReg_nbits {s : State} {x : Word} (hw : (s.writeReg .nbits x).width = s.width) :
    hideLanes (s.writeReg .nbits x) = (hideLanes s).writeReg .nbits x := by
  simp only [hideLanes, hw]
  have hchunks := forRange_comm (·.writeReg .nbits x) 0 (chunkCount s.bitCount s.width)
    (fun i u => hideChunkLane_writeReg_nbits s.width s.bitCount i x u) s
  have hcopies := forRange_comm (·.writeReg .nbits x) (chunkCount s.bitCount s.width)
    (s.bufferLen - chunkCount s.bitCount s.width) (fun i u => hideCopyLane_writeReg_nbits i x u)
  exact (congrArg _ hchunks).trans (hcopies _)

/-- The lanes of a REVEAL are the same for two words of NBITS with one effective width (R121). -/
theorem revealLanes_writeReg_nbits {s : State} {x : Word}
    (hw : (s.writeReg .nbits x).width = s.width) :
    revealLanes (s.writeReg .nbits x) = (revealLanes s).writeReg .nbits x := by
  simp only [revealLanes, hw]
  exact forRange_comm (·.writeReg .nbits x) 0 _ (fun i u => revealLane_writeReg_nbits _ _ i x u) s

/-- A command runs alike with two words of NBITS that have one effective width, but for NBITS itself
(R101, R121). -/
theorem exec_writeReg_nbits (i : Instr) {s : State} {x : Word}
    (hw : (s.writeReg .nbits x).width = s.width) :
    ∃ t, exec i s = .next t ∧ exec i (s.writeReg .nbits x) = .next (t.writeReg .nbits x) := by
  cases i with
  | hide =>
    rcases execHide_cases s with ⟨hb, h⟩ | ⟨hb, hm, h⟩ | ⟨hb, hm, h⟩
    · exact ⟨_, h, exec_hide_of_bufferTooLong hb⟩
    · exact ⟨_, h, exec_hide_of_stringTooLong hb (by rwa [hw])⟩
    · refine ⟨_, h, ?_⟩
      rw [exec_hide_of_fits (s := s.writeReg .nbits x) hb (by rwa [hw]), hideLanes_writeReg_nbits hw]
      rfl
  | reveal =>
    rcases execReveal_cases s with ⟨hb, h⟩ | ⟨hb, h⟩
    · exact ⟨_, h, exec_reveal_of_bufferTooLong hb⟩
    · refine ⟨_, h, ?_⟩
      rw [exec_reveal_of_fits (s := s.writeReg .nbits x) hb, revealLanes_writeReg_nbits hw, hw]
      rfl

/-- Settles O40: at and below 1, and at and above 8, NBITS has one effective width, so `exec_writeReg_nbits`
applies. -/
theorem clampedWidthsBehaveAlike : Obligations.ClampedWidthsBehaveAlike := by
  unfold Obligations.ClampedWidthsBehaveAlike
  intro i s x
  have hwidth : ∀ y : Word, ((s.writeReg .nbits y).width : Int) = max 1 (min 8 y.toInt) := fun y =>
    width_eq _
  have hx := hwidth x
  refine ⟨fun hlow => ?_, fun hhigh => ?_⟩
  · have hwidth_one : ((s.writeReg .nbits 1).width : Int) = 1 := hwidth 1
    exact exec_writeReg_nbits i (s := s.writeReg .nbits 1) (x := x)
      (show (s.writeReg .nbits x).width = (s.writeReg .nbits 1).width by omega)
  · have hwidth_eight : ((s.writeReg .nbits 8).width : Int) = 8 := hwidth 8
    exact exec_writeReg_nbits i (s := s.writeReg .nbits 8) (x := x)
      (show (s.writeReg .nbits x).width = (s.writeReg .nbits 8).width by omega)

end Sys2Proof.Machine
end

section
/-! PROOFS. REVEAL (spec/41_reveal.md R122 to R128): its outcomes, the number of samples it reads and of
characters it drops, its result, and its frame. -/

namespace Sys2Proof.Machine

/-- A REVEAL ends with ILLEGAL and a write of STATUS.CODE alone, or with its lanes, OUTLEN and OK
(R120, R122). -/
theorem exec_reveal_eq_setCode {s t : State} (h : exec .reveal s = .next t) :
    t = s.setCode .illegal ∨
    t = ((revealLanes s).setOutlen (resultCount s.requested s.width s.bufferLen)).setCode .ok := by
  rcases execReveal_cases s with ⟨_, hs⟩ | ⟨_, hs⟩
  · exact .inl (Host.Outcome.next.inj (h.symm.trans hs))
  · exact .inr (Host.Outcome.next.inj (h.symm.trans hs))

/-- Settles O42: one lemma per outcome, and neither outcome of `exec_reveal_eq_setCode` is CAPACITY. -/
theorem revealFailsOnlyWhenTheBufferIsTooLong : Obligations.RevealFailsOnlyWhenTheBufferIsTooLong := by
  unfold Obligations.RevealFailsOnlyWhenTheBufferIsTooLong
  refine fun s => ⟨exec_reveal_of_bufferTooLong, fun hb => ⟨_, exec_reveal_of_fits hb, rfl⟩, fun t h => ?_⟩
  rcases exec_reveal_eq_setCode h with rfl | rfl
  · exact nofun
  · exact nofun

/-- `ceil_div(a, n)` is the one integer `c` with `c - 1 < a / n <= c` (R12). -/
theorem ceilDiv_eq {n : Nat} (hn : 1 ≤ n) {a c : Int} (hlo : (c - 1) * n < a) (hhi : a ≤ c * n) :
    ceilDiv a n = c := by
  have hle : ceilDiv a n ≤ c := (ceilDiv_le_iff hn a c).2 hhi
  have hgt : ¬ ceilDiv a n ≤ c - 1 := fun h => hlo.not_ge ((ceilDiv_le_iff hn a (c - 1)).1 h)
  omega

/-- REVEAL drops the one number `d` of characters from 0 to `n - 1` with `n` dividing `L + d` (R126). -/
theorem dropCount_eq_of_dvd {l d : Int} {n : Nat} (h0 : 0 ≤ d) (hlt : d < n) (hdvd : (n : Int) ∣ l + d) :
    dropCount l n = d := by
  obtain ⟨k, hk⟩ := hdvd
  have hneg : -l = d + n * -k := by rw [mul_neg, ← hk]; omega
  rw [dropCount_eq, hneg, Int.add_mul_emod_self_left, Int.emod_eq_of_lt h0 hlt]

/-- The length of REVEAL's result as an integer (R126). -/
theorem natCast_resultCount (l : Int) (n b : Nat) :
    (resultCount l n b : Int) = max 0 ((samplesRead l n b : Int) * n - dropCount l n) :=
  Int.toNat_of_nonneg (le_max_left _ _)

/-- Fewer than `n` characters are dropped, so only the last field read can be cut (R126). -/
theorem pred_samplesRead_mul_le_resultCount (l : Int) {n : Nat} (b : Nat) (hn : 1 ≤ n) :
    (samplesRead l n b - 1) * n ≤ resultCount l n b := by
  have hd := dropCount_lt l n hn
  have hcount := natCast_resultCount l n b
  cases hp : samplesRead l n b with
  | zero => simp
  | succ p =>
    rw [hp] at hcount
    push_cast [add_mul] at hcount
    rw [Nat.add_sub_cancel]
    zify
    omega

/-- REVEAL's request is the signed value of LENGTH (R24). -/
theorem requested_eq (s : State) : s.requested = s.length.toInt := sint32_eq_toInt _

/-- The fields REVEAL reads of a buffer that exists fit the bit memory (R127). -/
theorem samplesRead_mul_width_le {s : State} (l : Int) (hb : s.bufferLen ≤ s.cap) :
    samplesRead l s.width s.bufferLen * s.width ≤ 8 * s.cap := by
  rw [Nat.mul_comm 8]
  exact Nat.mul_le_mul ((samplesRead_le _ _ _).trans hb) (width_le s)

/-- Settles O41: `ceilDiv_eq` and `dropCount_eq_of_dvd` make `p` the model's number of samples and `d` its
number of dropped characters; the result is `resultCount` characters long, and `bit_revealLanes` gives them
one by one. -/
theorem revealGathersTheLowBits : Obligations.RevealGathersTheLowBits := by
  unfold Obligations.RevealGathersTheLowBits
  intro s p0 d p hInv hb hlo hhi hd0 hdn hdvd hp
  have hn := width_pos s
  rw [← requested_eq] at hlo hhi hdvd
  have hread : samplesRead s.requested s.width s.bufferLen = p := by
    simp only [samplesRead, ceilDiv_eq hn hlo hhi, hp]
  have hdrop := dropCount_eq_of_dvd hd0 hdn hdvd
  have hexec := exec_reveal_of_fits hb
  refine ⟨hread ▸ samplesRead_le _ _ _, _, hexec, rfl, ?_⟩
  rw [resultLen_of_execReveal_ok hInv hexec rfl, ← hread, ← hdrop]
  refine ⟨natCast_resultCount _ _ _, resultCount_le _ _ _ hn, samplesRead_mul_width_le _ hb,
    pred_samplesRead_mul_le_resultCount _ _ hn, fun j hj => ?_⟩
  rw [setCode_bit, setOutlen_bit, bit_revealLanes, if_pos hj]

/-- The lanes of a REVEAL write no sample of DST (R128). -/
@[simp] theorem byte_revealLanes_dst (s : State) (i : Nat) :
    (revealLanes s).byte .dst i = s.byte .dst i := by
  rw [revealLanes_frame]; rfl

/-- The lanes of a REVEAL write no register (R128). -/
@[simp] theorem readReg_revealLanes (s : State) (r : RegName) :
    (revealLanes s).readReg r = s.readReg r := by
  rw [revealLanes_frame]; cases r <;> rfl

@[simp] theorem revealLanes_cap (s : State) : (revealLanes s).cap = s.cap := by
  rw [revealLanes_frame]
@[simp] theorem revealLanes_epoch (s : State) : (revealLanes s).epoch = s.epoch := by
  rw [revealLanes_frame]
@[simp] theorem revealLanes_script (s : State) : (revealLanes s).script = s.script := by
  rw [revealLanes_frame]
@[simp] theorem revealLanes_readings (s : State) : (revealLanes s).readings = s.readings := by
  rw [revealLanes_frame]

/-- A write of OUTLEN is seen in no other register (R25). -/
theorem readReg_setOutlen_of_ne (s : State) (v : Nat) {r : RegName} (hr : r ≠ .outlen) :
    (s.setOutlen v).readReg r = s.readReg r := by
  cases r with
  | outlen => exact absurd rfl hr
  | cmd | status | nbits | buflen | bitlen | length => rfl

/-- No bit of BIT changes but those below the OUTLEN that a REVEAL ending with OK sets (R128). -/
theorem bit_of_exec_reveal {s t : State} (hInv : s.Inv) (h : exec .reveal s = .next t) {j : Nat}
    (hj : t.code = .ok → t.resultLen ≤ j) : t.bit j = s.bit j := by
  by_cases hok : t.code = .ok
  · rw [bit_of_execReveal_ok hInv h hok, if_neg (not_lt.2 (hj hok))]
  · rcases exec_reveal_eq_setCode h with rfl | rfl
    · exact setCode_bit s _ j
    · exact absurd rfl hok

/-- Settles O43: the bit memory by `bit_of_exec_reveal`, whole bytes by their eight bits; of the rest an error
writes STATUS.CODE alone, and a success OUTLEN and STATUS.CODE. -/
theorem revealLeavesAllElseAlone : Obligations.RevealLeavesAllElseAlone := by
  unfold Obligations.RevealLeavesAllElseAlone
  intro s t hInv h
  have hbit : ∀ j, (t.code = .ok → t.resultLen ≤ j) → t.bit j = s.bit j := fun j =>
    bit_of_exec_reveal hInv h
  have hbyte : ∀ k, (t.code = .ok → t.resultLen ≤ 8 * k) → t.byte .bitb k = s.byte .bitb k := fun k hk =>
    byte_bitb_eq_of_bit_eq fun u _ => hbit _ fun hok => (hk hok).trans (Nat.le_add_right _ _)
  rcases exec_reveal_eq_setCode h with rfl | rfl
  · exact ⟨fun r hr _ => readReg_setCode_of_ne s _ hr, fun _ => rfl, rfl, rfl, rfl, rfl,
      setCode_byte s _ _, setCode_byte s _ _, hbit, hbyte⟩
  · refine ⟨fun r hr hro => ?_, fun hne => absurd rfl hne, revealLanes_cap s, revealLanes_epoch s,
      revealLanes_script s, revealLanes_readings s, fun i => ?_, fun i => ?_, hbit, hbyte⟩
    · rw [readReg_setCode_of_ne _ _ hr, readReg_setOutlen_of_ne _ _ hro, readReg_revealLanes]
    · rw [setCode_byte, setOutlen_byte, byte_revealLanes_src]
    · rw [setCode_byte, setOutlen_byte, byte_revealLanes_dst]

end Sys2Proof.Machine
end

section
/-! PROOFS. The errors of a command (spec/60_exceptions.md R163 to R169): which check decides STATUS.CODE, what
a failed command leaves alone, and why no error has to be acknowledged. -/

namespace Sys2Proof.Machine

/-- HIDE checks the buffer length, then the capacity (R166). -/
theorem code_of_exec_hide {s t : State} (h : exec .hide s = .next t) :
    t.code = if s.cap < s.bufferLen then .illegal
      else if s.bufferLen * s.width < s.bitCount then .capacity else .ok := by
  rcases execHide_cases s with ⟨hb, hs⟩ | ⟨hb, hm, hs⟩ | ⟨hb, hm, hs⟩
  · rw [if_pos hb, ← Host.Outcome.next.inj (hs.symm.trans h), setCode_code]
  · rw [if_neg hb.not_gt, if_pos hm, ← Host.Outcome.next.inj (hs.symm.trans h), setCode_code]
  · rw [if_neg hb.not_gt, if_neg hm.not_gt, ← Host.Outcome.next.inj (hs.symm.trans h), setCode_code]

/-- REVEAL checks the buffer length alone (R122, R166). -/
theorem code_of_exec_reveal {s t : State} (h : exec .reveal s = .next t) :
    t.code = if s.cap < s.bufferLen then .illegal else .ok := by
  rcases execReveal_cases s with ⟨hb, hs⟩ | ⟨hb, hs⟩
  · rw [if_pos hb, ← Host.Outcome.next.inj (hs.symm.trans h), setCode_code]
  · rw [if_neg hb.not_gt, ← Host.Outcome.next.inj (hs.symm.trans h), setCode_code]

/-- A CMD write checks the word first, and then what its command checks (R166). -/
theorem code_of_runCommand {w : Word} {s t : State} (h : runCommand w s = .next t) :
    t.code =
      if w ≠ 0x00000001#32 ∧ w ≠ 0x00000002#32 then .illegal
      else if s.cap < s.bufferLen then .illegal
      else if w = 0x00000001#32 ∧ s.bufferLen * s.width < s.bitCount then .capacity
      else .ok := by
  rcases decode_cases w with ⟨rfl, hd⟩ | ⟨rfl, hd⟩ | ⟨hhide, hreveal, e, hd⟩
  · simp only [runCommand, hd] at h
    simpa using code_of_exec_hide h
  · simp only [runCommand, hd] at h
    simpa using code_of_exec_reveal h
  · simp only [runCommand, hd] at h
    rw [if_pos ⟨hhide, hreveal⟩, ← Host.Outcome.next.inj h, raise_eq_setCode, setCode_code]

/-- Settles O13: the step runs the word on the state with the move taken off the script, whose operands are
those of `s`, and `code_of_runCommand` gives the CODE it leaves. -/
theorem checksFireInOrder : Obligations.ChecksFireInOrder := by
  unfold Obligations.ChecksFireInOrder
  intro s w rest hscript
  obtain ⟨t, ht⟩ := runCommand_next w (s.withScript rest)
  have hcode := code_of_runCommand ht
  exact ⟨t, (step_commandWrite hscript).trans ht, hcode⟩

/-- A command that does not end with OK has written STATUS.CODE alone (R168). -/
theorem eq_setCode_of_exec_failed {i : Instr} {s t : State} (h : exec i s = .next t)
    (hfail : t.code ≠ .ok) : t = s.setCode t.code := by
  cases i with
  | hide =>
    rcases exec_hide_eq_setCode h with ⟨c, _, rfl⟩ | ⟨_, rfl⟩
    · rfl
    · exact absurd rfl hfail
  | reveal =>
    rcases exec_reveal_eq_setCode h with rfl | rfl
    · rfl
    · exact absurd rfl hfail

/-- A CMD write that does not end with OK has written STATUS.CODE alone (R83, R168). -/
theorem eq_setCode_of_runCommand_failed {w : Word} {s t : State} (h : runCommand w s = .next t)
    (hfail : t.code ≠ .ok) : t = s.setCode t.code := by
  rcases runCommand_cases w s with ⟨i, _, hrun⟩ | ⟨e, _, hrun⟩
  · exact eq_setCode_of_exec_failed (hrun.symm.trans h) hfail
  · obtain rfl := Host.Outcome.next.inj (hrun.symm.trans h)
    rfl

/-- Settles O14: CAPACITY and ILLEGAL are not OK, so `eq_setCode_of_runCommand_failed` applies to the step. -/
theorem failedCommandsWriteOnlyStatus : Obligations.FailedCommandsWriteOnlyStatus := by
  unfold Obligations.FailedCommandsWriteOnlyStatus
  intro s t w rest hscript hstep herror
  have hfail : t.code ≠ .ok := by
    rcases herror with hc | hc <;> rw [hc] <;> decide
  exact eq_setCode_of_runCommand_failed ((step_commandWrite hscript).symm.trans hstep) hfail

/-- Of two writes of STATUS.CODE the second decides (R169). -/
@[simp] theorem setCode_setCode (s : State) (c d : StatusCode) :
    (s.setCode c).setCode d = s.setCode d := rfl

/-- The lanes of a HIDE carry along whatever CODE held: no lane reads or writes it. -/
theorem hideLanes_setCode (s : State) (c : StatusCode) :
    hideLanes (s.setCode c) = (hideLanes s).setCode c := by
  have hchunks := forRange_comm (·.setCode c) 0 (chunkCount s.bitCount s.width)
    (body := hideChunkLane s.width s.bitCount) (fun _ _ => rfl) s
  have hcopies := forRange_comm (·.setCode c) (chunkCount s.bitCount s.width)
    (s.bufferLen - chunkCount s.bitCount s.width) (body := hideCopyLane) (fun _ _ => rfl)
  exact (congrArg _ hchunks).trans (hcopies _)

/-- A lane of REVEAL carries along whatever CODE held. -/
theorem revealLane_setCode (n outlen i : Nat) (c : StatusCode) (u : State) :
    revealLane n outlen i (u.setCode c) = (revealLane n outlen i u).setCode c := by
  refine forRange_comm (·.setCode c) 0 n (fun t v => ?_) u
  unfold revealBit
  simp only
  split <;> rfl

/-- The lanes of a REVEAL carry along whatever CODE held. -/
theorem revealLanes_setCode (s : State) (c : StatusCode) :
    revealLanes (s.setCode c) = (revealLanes s).setCode c :=
  forRange_comm (fun u : State => u.setCode c) 0 _ (fun i u => revealLane_setCode _ _ i c u) s

/-- A command does the same whatever CODE held (R169): its checks read only operands, its lanes carry CODE
along, and its last write is of CODE. -/
theorem exec_setCode (i : Instr) (s : State) (c : StatusCode) : exec i (s.setCode c) = exec i s := by
  cases i with
  | hide =>
    rcases execHide_cases s with ⟨hb, hs⟩ | ⟨hb, hm, hs⟩ | ⟨hb, hm, hs⟩
    · exact (exec_hide_of_bufferTooLong (s := s.setCode c) hb).trans hs.symm
    · exact (exec_hide_of_stringTooLong (s := s.setCode c) hb hm).trans hs.symm
    · rw [exec_hide_of_fits (s := s.setCode c) hb hm, exec_hide_of_fits hb hm, hideLanes_setCode,
        setCode_setCode]
  | reveal =>
    rcases execReveal_cases s with ⟨hb, hs⟩ | ⟨hb, hs⟩
    · exact (exec_reveal_of_bufferTooLong (s := s.setCode c) hb).trans hs.symm
    · rw [exec_reveal_of_fits (s := s.setCode c) hb, exec_reveal_of_fits hb, revealLanes_setCode]
      rfl

/-- A CMD write of any word does the same whatever CODE held (R169). -/
theorem runCommand_setCode (w : Word) (s : State) (c : StatusCode) :
    runCommand w (s.setCode c) = runCommand w s := by
  unfold runCommand
  cases decode w with
  | ok i => exact exec_setCode i s c
  | error e => rfl

/-- Settles O15: both steps run the word, on states that differ in CODE alone, so `runCommand_setCode` makes
them one. -/
theorem nextCommandIgnoresOldStatus : Obligations.NextCommandIgnoresOldStatus := by
  unfold Obligations.NextCommandIgnoresOldStatus
  intro s c w rest hscript
  obtain ⟨t, ht⟩ := runCommand_next w (s.withScript rest)
  refine ⟨t, (step_commandWrite hscript).trans ht, ?_⟩
  calc step { s with code := c }
      = runCommand w ((s.withScript rest).setCode c) := step_commandWrite hscript
    _ = runCommand w (s.withScript rest) := runCommand_setCode w _ c
    _ = .next t := ht

end Sys2Proof.Machine
end

section
/-! PROOFS. A CMD write completes (spec/70_reset_and_hazards.md R212), and the host's script and readings and
the parameter SAMPLE_CAP are no part of what it writes. -/

namespace Sys2Proof.Machine

/-- A command leaves alone what is not state of the unit: an error writes STATUS.CODE alone (R168), and the
lanes of a success write one memory alone (R107, R128). -/
theorem exec_script_readings_cap {i : Instr} {s t : State} (h : exec i s = .next t) :
    t.script = s.script ∧ t.readings = s.readings ∧ t.cap = s.cap := by
  cases i with
  | hide =>
    rcases exec_hide_eq_setCode h with ⟨c, _, rfl⟩ | ⟨_, rfl⟩
    · exact ⟨setCode_script s c, setCode_readings s c, setCode_cap s c⟩
    · exact ⟨hideLanes_script s, hideLanes_readings s, hideLanes_cap s⟩
  | reveal =>
    rcases exec_reveal_eq_setCode h with rfl | rfl
    · exact ⟨setCode_script s _, setCode_readings s _, setCode_cap s _⟩
    · exact ⟨revealLanes_script s, revealLanes_readings s, revealLanes_cap s⟩

/-- A CMD write of any word, command or not, leaves alone what is not state of the unit (R83). -/
theorem runCommand_script_readings_cap {w : Word} {s t : State} (h : runCommand w s = .next t) :
    t.script = s.script ∧ t.readings = s.readings ∧ t.cap = s.cap := by
  rcases runCommand_cases w s with ⟨i, _, hrun⟩ | ⟨e, _, hrun⟩
  · exact exec_script_readings_cap (hrun.symm.trans h)
  · obtain rfl := Host.Outcome.next.inj (hrun.symm.trans h)
    exact ⟨setCode_script s _, setCode_readings s _, setCode_cap s _⟩

/-- Settles O12: the step runs the word on the state with the move taken off the script. That run answers a
next state for every word (`runCommand_next`), has set CODE, and leaves the script as it finds it: `rest`. -/
theorem everyCommandWriteCompletes : Obligations.EveryCommandWriteCompletes := by
  unfold Obligations.EveryCommandWriteCompletes
  intro s w rest hscript
  obtain ⟨t, hrun⟩ := runCommand_next w (s.withScript rest)
  have hframe := runCommand_script_readings_cap hrun
  exact ⟨t, (step_commandWrite hscript).trans hrun, runCommand_code_ne_none hrun, hframe⟩

end Sys2Proof.Machine
end

section
/-! PROOFS. The invariant (spec/00_scope.md R6, spec/10_state.md R25, spec/20_memory.md R50): it holds at reset,
every write of the unit keeps it, and so every step does. -/

namespace Sys2Proof.Machine

/-- A write of a byte whose index exists keeps the invariant (R50). -/
theorem inv_setByte {s : State} (hInv : s.Inv) (b : Bank) {i : Nat} (v : Byte) (hi : i < s.cap) :
    (s.setByte b i v).Inv := by
  obtain ⟨hcap, ⟨hsrc, hsrcIn⟩, ⟨hdst, hdstIn⟩, ⟨hbit, hbitIn⟩, hout⟩ := hInv
  cases b with
  | src =>
    exact ⟨hcap, ⟨wf_set _ i v hsrc, within_set _ _ i v hsrcIn hi⟩, ⟨hdst, hdstIn⟩, ⟨hbit, hbitIn⟩, hout⟩
  | dst =>
    exact ⟨hcap, ⟨hsrc, hsrcIn⟩, ⟨wf_set _ i v hdst, within_set _ _ i v hdstIn hi⟩, ⟨hbit, hbitIn⟩, hout⟩
  | bitb =>
    exact ⟨hcap, ⟨hsrc, hsrcIn⟩, ⟨hdst, hdstIn⟩, ⟨wf_set _ i v hbit, within_set _ _ i v hbitIn hi⟩, hout⟩

/-- A write of a bit whose index exists keeps the invariant (R35, R50). -/
theorem inv_setBit {s : State} (hInv : s.Inv) {j : Nat} (v : Bool) (hj : j < 8 * s.cap) :
    (s.setBit j v).Inv := inv_setByte hInv .bitb _ (by omega)

/-- A write of STATUS.CODE keeps the invariant, which does not speak of it. -/
theorem inv_setCode {s : State} (hInv : s.Inv) (c : StatusCode) : (s.setCode c).Inv := hInv

/-- OUTLEN may take any length that the bit memory holds (R25). -/
theorem inv_setOutlen {s : State} (hInv : s.Inv) {v : Nat} (hv : v ≤ 8 * s.cap) : (s.setOutlen v).Inv := by
  obtain ⟨hcap, hsrc, hdst, hbit, _⟩ := hInv
  refine ⟨hcap, hsrc, hdst, hbit, ?_⟩
  calc (s.setOutlen v).resultLen = v % 2 ^ 32 := rfl
    _ ≤ v := Nat.mod_le _ _
    _ ≤ 8 * s.cap := hv

/-- A loop whose rounds are writes that keep the invariant and SAMPLE_CAP keeps both. -/
theorem forRange_inv {s : State} (hInv : s.Inv) {lo count : Nat} {body : Nat → State → State} {cap : Nat}
    (hcap : s.cap = cap)
    (hbody : ∀ i u, i < lo + count → u.Inv → u.cap = cap → (body i u).Inv ∧ (body i u).cap = cap) :
    (forRange lo count body s).Inv ∧ (forRange lo count body s).cap = cap :=
  forRange_keeps (P := fun u : State => u.Inv ∧ u.cap = cap) lo count body s ⟨hInv, hcap⟩
    fun i u _ hi hu => hbody i u hi hu.1 hu.2

/-- The lanes of a HIDE write slots that exist (R102, R103). -/
theorem inv_hideLanes {s : State} (hInv : s.Inv) (hb : s.bufferLen ≤ s.cap)
    (hm : s.bitCount ≤ s.bufferLen * s.width) : (hideLanes s).Inv := by
  have hq := chunkCount_le_of_fits (width_pos s) hm
  obtain ⟨hchunks, hcap⟩ := forRange_inv hInv (lo := 0) (count := chunkCount s.bitCount s.width)
    (body := hideChunkLane s.width s.bitCount) rfl
    fun i u hi hu hc => ⟨inv_setByte hu .dst _ (by omega), hc⟩
  exact (forRange_inv hchunks (lo := chunkCount s.bitCount s.width) (body := hideCopyLane) hcap
    fun i u hi hu hc => ⟨inv_setByte hu .dst _ (by omega), hc⟩).1

/-- The result of a REVEAL fits the bit memory (R127). -/
theorem resultCount_le_of_bufferLen_le {s : State} (hb : s.bufferLen ≤ s.cap) :
    resultCount s.requested s.width s.bufferLen ≤ 8 * s.cap :=
  (resultCount_le _ _ _ (width_pos s)).trans (samplesRead_mul_width_le _ hb)

/-- The lanes of a REVEAL write bits that exist (R122, R127). -/
theorem inv_revealLanes {s : State} (hInv : s.Inv) (hb : s.bufferLen ≤ s.cap) : (revealLanes s).Inv := by
  have hfit := resultCount_le_of_bufferLen_le hb
  refine (forRange_inv hInv rfl fun i u _ hu hc => forRange_inv hu hc fun t v _ hv hc' => ?_).1
  simp only [revealBit]
  split
  · exact ⟨inv_setBit hv _ (by omega), hc'⟩
  · exact ⟨hv, hc'⟩

/-- A command keeps the invariant, whatever its outcome. -/
theorem inv_exec {i : Instr} {s t : State} (hInv : s.Inv) (h : exec i s = .next t) : t.Inv := by
  cases i with
  | hide =>
    rcases execHide_cases s with ⟨_, hs⟩ | ⟨_, _, hs⟩ | ⟨hb, hm, hs⟩ <;>
      obtain rfl := Host.Outcome.next.inj (hs.symm.trans h)
    · exact inv_setCode hInv _
    · exact inv_setCode hInv _
    · exact inv_setCode (inv_hideLanes hInv hb hm) _
  | reveal =>
    rcases execReveal_cases s with ⟨_, hs⟩ | ⟨hb, hs⟩ <;>
      obtain rfl := Host.Outcome.next.inj (hs.symm.trans h)
    · exact inv_setCode hInv _
    · refine inv_setCode (inv_setOutlen (inv_revealLanes hInv hb) ?_) _
      rw [revealLanes_cap]
      exact resultCount_le_of_bufferLen_le hb

/-- A CMD write of any word keeps the invariant. -/
theorem inv_runCommand {w : Word} {s t : State} (hInv : s.Inv) (h : runCommand w s = .next t) : t.Inv := by
  rcases runCommand_cases w s with ⟨i, _, hrun⟩ | ⟨e, _, hrun⟩
  · exact inv_exec hInv (hrun.symm.trans h)
  · obtain rfl := Host.Outcome.next.inj (hrun.symm.trans h)
    exact inv_setCode hInv _

/-- A host write to a register stores an operand word or nothing, and the invariant speaks of neither. -/
theorem inv_writeReg {s : State} (hInv : s.Inv) (r : RegName) (w : Word) : (s.writeReg r w).Inv := by
  cases r with
  | cmd | status | nbits | buflen | bitlen | length | outlen => exact hInv

/-- A unit fresh from reset meets the invariant when SAMPLE_CAP is in its range (R6, R39). -/
theorem inv_resetWith {cap : Nat} (hlo : 1 ≤ cap) (hhi : cap ≤ 2 ^ 28) : (State.resetWith cap).Inv :=
  ⟨⟨hlo, hhi⟩, ⟨rfl, rfl⟩, ⟨rfl, rfl⟩, ⟨rfl, rfl⟩, Nat.zero_le _⟩

/-- SAMPLE_CAP of the unit that comes out of reset is in its range (R6). -/
theorem sampleCap_mem : 1 ≤ Config.sampleCap ∧ Config.sampleCap ≤ 2 ^ 28 := by
  have := Config.capSlack.isLt
  unfold Config.sampleCap
  omega

/-- Settles O4: the range of SAMPLE_CAP is `sampleCap_mem`, and the memories are empty. -/
theorem resetStateIsWellFormed : Obligations.ResetStateIsWellFormed := by
  unfold Obligations.ResetStateIsWellFormed
  exact inv_resetWith sampleCap_mem.1 sampleCap_mem.2

/-- Settles O5: each of the effects that `perform_next` lists keeps the invariant. -/
theorem everyStepKeepsWellFormedness : Obligations.EveryStepKeepsWellFormedness := by
  unfold Obligations.EveryStepKeepsWellFormedness
  intro s t hInv h
  rcases step_cases s with ⟨_, hstep⟩ | ⟨mv, rest, _, hstep⟩
  · exact Host.Outcome.next.inj (hstep.symm.trans h) ▸ hInv
  · have hInv' : (s.withScript rest).Inv := hInv
    rcases perform_next (hstep.symm.trans h) with
      ⟨v, rfl⟩ | ⟨w, hrun⟩ | ⟨r, w, _, rfl⟩ | ⟨b, i, v, hi, rfl⟩ | ⟨_, rfl⟩
    · exact hInv'
    · exact inv_runCommand hInv' hrun
    · exact inv_writeReg hInv' r w
    · exact inv_setByte hInv' b v hi
    · exact inv_resetWith hInv.1.1 hInv.1.2

/-- Settles O1: `State.reset` has the table's values, and an empty memory lists no byte. -/
theorem resetStateAsTheTableSays : Obligations.ResetStateAsTheTableSays := by
  unfold Obligations.ResetStateAsTheTableSays
  refine ⟨rfl, rfl, rfl, rfl, rfl, rfl, rfl, rfl, fun b => ?_⟩
  cases b with
  | src | dst | bitb => exact ⟨rfl, fun _ => rfl⟩

/-- Settles O3: the reset move is always performed, and its bytes are `platformReset_byte`. -/
theorem platformResetLeavesOnlyFreeContents : Obligations.PlatformResetLeavesOnlyFreeContents := by
  unfold Obligations.PlatformResetLeavesOnlyFreeContents
  intro s rest hscript
  exact ⟨_, step_of_script hscript, rfl, rfl, rfl, rfl, rfl, rfl, rfl, rfl, rfl, platformReset_byte _⟩

end Sys2Proof.Machine
end

section
/-! PROOFS. The host's accesses (spec/20_memory.md R55, R60): what a read, a write and a write-back do, which
moves are refused, and which move a change of a register or a byte comes from. -/

namespace Sys2Proof.Machine

/-- Settles O9: `step_commandWrite` runs the word, and `withFetchWord` puts it at the front of the script. -/
theorem stepRunsTheDecodedCommand : Obligations.StepRunsTheDecodedCommand := by
  unfold Obligations.StepRunsTheDecodedCommand
  have hrun : ∀ (s : State) (w : Word) (i : Instr) (rest : List Move),
      s.script = commandWrite w :: rest → decode w = .ok i → step s = exec i (s.withScript rest) := by
    intro s w i rest hscript hi
    rw [step_commandWrite hscript, runCommand, hi]
  refine ⟨hrun, fun s hscript => ?_, fun s w i hi => ?_⟩
  · rcases step_cases s with ⟨_, hstep⟩ | ⟨mv, rest, hcons, _⟩
    · exact hstep
    · simp [hscript] at hcons
  · have hword : BitVec.ofNat 32 (w.toNat % 2 ^ 32) = w := by
      rw [Nat.mod_eq_of_lt w.isLt, BitVec.ofNat_toNat, BitVec.setWidth_eq]
    rw [State.withFetchWord, hword, hrun _ w i s.script rfl hi, withScript_withScript_self]

/-- Settles O21: one lemma for the registers, one for the bytes. -/
theorem hostReadsHaveNoSideEffect : Obligations.HostReadsHaveNoSideEffect := by
  unfold Obligations.HostReadsHaveNoSideEffect
  exact fun s rest => ⟨fun r => step_readReg, fun b i => step_readByte⟩

/-- What a register reads as after a host write to it or to another: only the operand registers take the
word (R25, R29, R30, R31). -/
theorem readReg_writeReg (s : State) (r r' : RegName) (w : Word) :
    (s.writeReg r w).readReg r' =
      if r' = r ∧ r ≠ .cmd ∧ r ≠ .status ∧ r ≠ .outlen then w else s.readReg r' := by
  cases r with
  | cmd | status | nbits | buflen | bitlen | length | outlen => cases r' <;> rfl

/-- Settles O22: the step is `step_writeReg`, and `readReg_writeReg` says what each register then reads as. -/
theorem registerWritesStoreTheWord : Obligations.RegisterWritesStoreTheWord := by
  unfold Obligations.RegisterWritesStoreTheWord
  intro s r r' w rest hr hscript
  refine ⟨_, step_writeReg hr w.isLt hscript, ?_, ?_, ?_, fun b i => ?_⟩
  · rw [writeReg_script, withScript_script]
  · rw [writeReg_readings, withScript_readings]
  · rw [readReg_writeReg, withScript_readReg, BitVec.ofNat_toNat, BitVec.setWidth_eq]
    simp only [ne_eq, hr, not_false_eq_true, true_and]
  · rw [writeReg_byte, withScript_byte]

/-- A host write of a byte to an index that exists stores it (R55, R62). -/
theorem step_writeByte {s : State} {b : Bank} {i : Nat} {v : Byte} {rest : List Move} (hi : i < s.cap)
    (h : s.script = .memWrite (.mem b) i 1 v.toNat :: rest) :
    step s = .next ((s.withScript rest).setByte b i v) := by
  have hfits : valueFits (.byte b i) v.toNat = true := decide_eq_true v.isLt
  rw [step_of_script h]
  simp only [perform, withScript_cap, locate_mem_of_lt b hi, hostWrite, hfits, if_true,
    BitVec.ofNat_toNat, BitVec.setWidth_eq]

/-- A write of a byte of a memory writes no register. -/
@[simp] theorem readReg_setByte (s : State) (b : Bank) (i : Nat) (v : Byte) (r : RegName) :
    (s.setByte b i v).readReg r = s.readReg r := by
  cases b with
  | src | dst | bitb => cases r <;> rfl

/-- A write of a byte leaves every other byte of every memory alone (R62). -/
theorem byte_setByte_of_ne (s : State) {b b' : Bank} {i i' : Nat} (v : Byte) (h : (b', i') ≠ (b, i)) :
    (s.setByte b i v).byte b' i' = s.byte b' i' := by
  rw [byte_setByte, if_neg]
  rintro ⟨rfl, rfl⟩
  exact h rfl

/-- Settles O23: the step stores the byte, `byte_setByte` says what each byte then reads as, and `bit_mul_add`
reads the eight bits of BIT off a byte of BITB. -/
theorem byteWritesStoreOneByte : Obligations.ByteWritesStoreOneByte := by
  unfold Obligations.ByteWritesStoreOneByte
  intro s b i v rest hi hscript
  refine ⟨_, step_writeByte hi hscript, ?_, byte_setByte_same _ b i v, fun b' i' hne => ?_, fun r => ?_, ?_⟩
  · rw [setByte_script, withScript_script]
  · rw [byte_setByte_of_ne _ _ hne, withScript_byte]
  · rw [readReg_setByte, withScript_readReg]
  · rintro rfl u hu
    rw [bit_mul_add _ _ hu, byte_setByte_same]

/-- A write-back is the write of the value read last (log 12). -/
theorem perform_writeBack {s : State} {v : Nat} (h : s.readings.getLast? = some v) (sp : Space)
    (addr nbytes : Nat) : perform (.writeBack sp addr nbytes) s = perform (.memWrite sp addr nbytes v) s := by
  simp only [perform, h]

/-- Settles O57: both moves are performed on the state with the script cut to `rest`, and there
`perform_writeBack` makes them one. -/
theorem writeBackWritesTheLatestReading : Obligations.WriteBackWritesTheLatestReading := by
  unfold Obligations.WriteBackWritesTheLatestReading
  intro s sp addr nbytes v rest hscript hlast
  rw [step_of_script hscript, perform_writeBack (s := s.withScript rest) hlast,
    step_of_script (withScript_script s (.memWrite sp addr nbytes v :: rest))]
  rfl

/-- A write-back of a byte that was read last stores that byte (log 12). -/
theorem step_writeBackByte {s : State} {b : Bank} {i : Nat} {v : Byte} {rest : List Move} (hi : i < s.cap)
    (h : s.script = .writeBack (.mem b) i 1 :: rest) (hlast : s.readings.getLast? = some v.toNat) :
    step s = .next ((s.withScript rest).setByte b i v) := by
  rw [writeBackWritesTheLatestReading s _ _ _ _ rest h hlast]
  exact step_writeByte (s := s.withScript (.memWrite (.mem b) i 1 v.toNat :: rest)) hi rfl

/-- Settles O58: the read records the sample of DST, so the write-back stores it in SRC. -/
theorem copyBackCopiesOneSample : Obligations.CopyBackCopiesOneSample := by
  unfold Obligations.CopyBackCopiesOneSample
  intro s i rest hi hscript
  refine ⟨_, _, step_readByte hi hscript,
    step_writeBackByte (v := s.byte .dst i) (rest := rest) hi rfl ?_, ?_, ?_, ?_, ?_, fun b i' hne => ?_,
    fun r => ?_⟩
  · rw [record_readings, List.getLast?_append, List.getLast?_singleton]; rfl
  · rw [setByte_script, withScript_script]
  · rw [setByte_readings, withScript_readings, record_readings, withScript_readings]
  · rw [setByte_cap, withScript_cap, record_cap, withScript_cap]
  · rw [byte_setByte_same]
  · rw [byte_setByte_of_ne _ _ hne, withScript_byte, record_byte, withScript_byte]
  · rw [readReg_setByte, withScript_readReg, record_readReg, withScript_readReg]

/-- A host write that reaches its target goes on exactly when its value fits (R55, R60). -/
theorem exists_hostWrite_eq_next_iff (tg : Target) (v : Nat) (s : State) :
    (∃ t, hostWrite tg v s = .next t) ↔ valueFits tg v = true := by
  refine ⟨fun ⟨t, ht⟩ => ?_, hostWrite_of_fits tg v s⟩
  rcases hostWrite_next ht with ⟨rfl, hv, _⟩ | ⟨r, rfl, _, hv, _⟩ | ⟨b, i, rfl, hv, _⟩
  · exact decide_eq_true hv
  · exact decide_eq_true hv
  · exact decide_eq_true hv

/-- A value fits the target of an access when it fits what the space holds (R55). -/
theorem valueFits_eq_valueWf {cap : Nat} {sp : Space} {addr nbytes : Nat} {tg : Target}
    (h : locate cap sp addr nbytes = .ok tg) (v : Nat) : valueFits tg v = valueWf sp v := by
  rcases locate_ok h with ⟨rfl, _, r, _, rfl⟩ | ⟨b, rfl, _, _, rfl⟩
  · exact decide_eq_decide.2 (Nat.lt_succ_iff (n := 0xFFFFFFFF))
  · exact decide_eq_decide.2 (Nat.lt_succ_iff (n := 255))

/-- A host write goes on exactly when its access is one of R55 and its value fits (R60). -/
theorem exists_perform_memWrite_eq_next_iff (sp : Space) (addr nbytes v : Nat) (s : State) :
    (∃ t, perform (.memWrite sp addr nbytes v) s = .next t) ↔
      (accessWf s.cap sp addr nbytes && valueWf sp v) = true := by
  have hacc := locate_ok_iff s.cap sp addr nbytes
  rw [Bool.and_eq_true, ← hacc]
  simp only [perform]
  cases hloc : locate s.cap sp addr nbytes with
  | error e => simp
  | ok tg =>
    simp only [exists_hostWrite_eq_next_iff, valueFits_eq_valueWf hloc, Except.ok.injEq, exists_eq', true_and]

/-- A move goes on exactly when the spec gives it (R55, R60; logs 4, 5 and 12). -/
theorem exists_perform_eq_next_iff (mv : Move) (s : State) :
    (∃ t, perform mv s = .next t) ↔ mv.wf s.cap s.readings.getLast? = true := by
  cases mv with
  | memRead sp addr nbytes =>
    have hacc := locate_ok_iff s.cap sp addr nbytes
    simp only [Move.wf, ← hacc, perform]
    cases locate s.cap sp addr nbytes with
    | error e => simp
    | ok tg => simp
  | memWrite sp addr nbytes v => exact exists_perform_memWrite_eq_next_iff sp addr nbytes v s
  | writeBack sp addr nbytes =>
    cases hlast : s.readings.getLast? with
    | none => simp [perform, Move.wf, hlast]
    | some v =>
      rw [perform_writeBack hlast]
      exact exists_perform_memWrite_eq_next_iff sp addr nbytes v s
  | platformReset => simp [perform, Move.wf]

/-- A step goes on exactly when the next move, if there is one, is one that the spec gives (R17, R18, R60). -/
theorem exists_step_eq_next_iff (s : State) : (∃ t, step s = .next t) ↔ s.nextMoveWf = true := by
  rcases step_cases s with ⟨hscript, hstep⟩ | ⟨mv, rest, hscript, hstep⟩
  · simp [State.nextMoveWf, hscript, hstep]
  · rw [hstep, exists_perform_eq_next_iff]
    simp [State.nextMoveWf, hscript]

/-- There is no fault, so a step that does not go on is refused (R169, R212; log 13). -/
theorem exists_step_eq_refused_iff (s : State) :
    (∃ r, step s = .refused r) ↔ ¬ ∃ t, step s = .next t := by
  cases step s with
  | next t => simp
  | fault r => cases r
  | refused r => simp

/-- Settles O25: a step goes on or is refused, and `exists_step_eq_next_iff` says when it goes on. -/
theorem exactlyUndefinedAccessesAreRefused : Obligations.ExactlyUndefinedAccessesAreRefused := by
  unfold Obligations.ExactlyUndefinedAccessesAreRefused
  intro s
  have hnext := exists_step_eq_next_iff s
  refine ⟨?_, hnext⟩
  rw [exists_step_eq_refused_iff, hnext, Bool.not_eq_true]

/-- A move that writes to an access: a host write of some value, or a write-back (R55; log 12). -/
def Move.writesTo (mv : Move) (sp : Space) (addr nbytes : Nat) : Prop :=
  (∃ v, mv = .memWrite sp addr nbytes v) ∨ mv = .writeBack sp addr nbytes

/-- A register's number names it alone (R31). -/
theorem eq_number_of_registerNumbered {a : Nat} {r : RegName} (h : registerNumbered a = some r) :
    a = r.number := by
  match a with
  | 0 | 1 | 2 | 3 | 4 | 5 | 6 => cases h; rfl
  | n + 7 => cases h

/-- The effect of a move that goes on, with the move it came from: a read, a reset, or a write that ran a
command, stored a register or stored a byte (R55, R190). -/
theorem perform_next_cause {mv : Move} {u t : State} (h : perform mv u = .next t) :
    (∃ v, t = u.record v) ∨ mv = .platformReset ∨
    (mv.writesTo .reg 0 4 ∧ ∃ w, runCommand w u = .next t) ∨
    (∃ r w, r ≠ .cmd ∧ mv.writesTo .reg r.number 4 ∧ t = u.writeReg r w) ∨
    (∃ b i v, mv.writesTo (.mem b) i 1 ∧ t = u.setByte b i v) := by
  have write : ∀ {sp addr nbytes v}, mv.writesTo sp addr nbytes →
      perform (.memWrite sp addr nbytes v) u = .next t →
      (mv.writesTo .reg 0 4 ∧ ∃ w, runCommand w u = .next t) ∨
      (∃ r w, r ≠ .cmd ∧ mv.writesTo .reg r.number 4 ∧ t = u.writeReg r w) ∨
      (∃ b i v, mv.writesTo (.mem b) i 1 ∧ t = u.setByte b i v) := by
    intro sp addr nbytes v hto hp
    simp only [perform] at hp
    cases hloc : locate u.cap sp addr nbytes with
    | error e => rw [hloc] at hp; cases hp
    | ok tg =>
      rw [hloc] at hp
      rcases locate_ok hloc with ⟨rfl, rfl, r, hr, rfl⟩ | ⟨b, rfl, rfl, _, rfl⟩
      · obtain rfl := eq_number_of_registerNumbered hr
        rcases hostWrite_next hp with ⟨htg, _, hrun⟩ | ⟨r', htg, hne, _, ht⟩ | ⟨b, i, htg, _⟩
        · cases htg; exact .inl ⟨hto, _, hrun⟩
        · cases htg; exact .inr (.inl ⟨r, _, hne, hto, ht⟩)
        · cases htg
      · rcases hostWrite_next hp with ⟨htg, _⟩ | ⟨r', htg, _⟩ | ⟨b', i, htg, _, ht⟩
        · cases htg
        · cases htg
        · cases htg; exact .inr (.inr ⟨b, addr, _, hto, ht⟩)
  cases mv with
  | memRead sp addr nbytes =>
    simp only [perform] at h
    split at h
    · exact .inl ⟨_, (Host.Outcome.next.inj h).symm⟩
    · cases h
  | memWrite sp addr nbytes v => exact .inr (.inr (write (.inl ⟨v, rfl⟩) h))
  | writeBack sp addr nbytes =>
    cases hlast : u.readings.getLast? with
    | none => simp [perform, hlast] at h
    | some v =>
      rw [perform_writeBack hlast] at h
      exact .inr (.inr (write (.inr rfl) h))
  | platformReset => exact .inr (.inl rfl)

/-- A command writes no register but STATUS and OUTLEN (R107, R128, R168). -/
theorem exec_readReg {c : Instr} {s t : State} (h : exec c s = .next t) {r : RegName} (hs : r ≠ .status)
    (ho : r ≠ .outlen) : t.readReg r = s.readReg r := by
  cases c with
  | hide =>
    rcases exec_hide_eq_setCode h with ⟨c, _, rfl⟩ | ⟨_, rfl⟩
    · exact readReg_setCode_of_ne s c hs
    · rw [readReg_setCode_of_ne _ _ hs, readReg_hideLanes]
  | reveal =>
    rcases exec_reveal_eq_setCode h with rfl | rfl
    · exact readReg_setCode_of_ne s _ hs
    · rw [readReg_setCode_of_ne _ _ hs, readReg_setOutlen_of_ne _ _ ho, readReg_revealLanes]

/-- A CMD write of any word writes no register but STATUS and OUTLEN (R30, R83). -/
theorem runCommand_readReg {w : Word} {s t : State} (h : runCommand w s = .next t) {r : RegName}
    (hs : r ≠ .status) (ho : r ≠ .outlen) : t.readReg r = s.readReg r := by
  rcases runCommand_cases w s with ⟨c, _, hrun⟩ | ⟨e, _, hrun⟩
  · exact exec_readReg (hrun.symm.trans h) hs ho
  · obtain rfl := Host.Outcome.next.inj (hrun.symm.trans h)
    exact readReg_setCode_of_ne s _ hs

/-- Settles O26: of the effects that `perform_next_cause` lists, a command changes STATUS and OUTLEN only, and
a register write the register it names only. -/
theorem registersChangeOnlyByTheirOwnCause : Obligations.RegistersChangeOnlyByTheirOwnCause := by
  unfold Obligations.RegistersChangeOnlyByTheirOwnCause
  intro s t mv rest r hscript hstep hne
  rw [← withScript_readReg s rest r] at hne
  rcases perform_next_cause ((step_of_script hscript).symm.trans hstep) with
    ⟨v, rfl⟩ | hreset | ⟨hto, w, hrun⟩ | ⟨r', w, _, hto, rfl⟩ | ⟨b, i, v, _, rfl⟩
  · exact absurd (record_readReg _ v r) hne
  · exact .inl hreset
  · have hr : r = .status ∨ r = .outlen := by
      by_contra hnot
      obtain ⟨hs, ho⟩ := not_or.1 hnot
      exact hne (runCommand_readReg hrun hs ho)
    rw [if_pos hr]
    exact .inr hto
  · rw [readReg_writeReg] at hne
    obtain ⟨rfl, _, hs, ho⟩ := of_not_not fun hnot => hne (if_neg hnot)
    rw [if_neg (not_or.2 ⟨hs, ho⟩)]
    exact .inr hto
  · exact absurd (readReg_setByte _ b i v r) hne

/-- Settles O27: of the effects that `perform_next_cause` lists, a byte write changes the byte it names only,
and a command no byte of SRC. -/
theorem bytesChangeOnlyByTheirOwnCause : Obligations.BytesChangeOnlyByTheirOwnCause := by
  unfold Obligations.BytesChangeOnlyByTheirOwnCause
  intro s t mv rest b i hscript hstep hne
  rw [← withScript_byte s rest b i] at hne
  rcases perform_next_cause ((step_of_script hscript).symm.trans hstep) with
    ⟨v, rfl⟩ | hreset | ⟨hto, w, hrun⟩ | ⟨r', w, _, _, rfl⟩ | ⟨b', i', v, hto, rfl⟩
  · exact absurd (record_byte _ v b i) hne
  · exact .inl hreset
  · refine .inr (.inr (.inr ⟨?_, hto⟩))
    rintro rfl
    exact hne (runCommand_byte_src hrun i)
  · exact absurd (writeReg_byte _ r' w b i) hne
  · have hsame : (b, i) = (b', i') := by
      by_contra hdiff
      exact hne (byte_setByte_of_ne _ v hdiff)
    obtain ⟨rfl, rfl⟩ := Prod.mk.inj hsame
    rcases hto with hw | hwb
    · exact .inr (.inl hw)
    · exact .inr (.inr (.inl hwb))

end Sys2Proof.Machine
end

section
/-! PROOFS. HIDE's special cases (spec/40_hide.md R103, R110 to R112, R116): the capacity boundary, the empty
string and the empty buffer, full width, the size of the change, and what the result rests on. -/

namespace Sys2Proof.Machine

/-- Settles O56: the chunks' count against the buffer is `chunkCount_le_of_fits`. -/
theorem everyChunkHasASlot : Obligations.EveryChunkHasASlot := by
  unfold Obligations.EveryChunkHasASlot
  exact fun s => chunkCount_le_of_fits (width_pos s)

/-- BITLEN holds any length below 2^32 exactly (R23). -/
theorem bitCount_writeReg_bitlen (s : State) {m : Nat} (hm : m < 2 ^ 32) :
    (s.writeReg .bitlen (BitVec.ofNat 32 m)).bitCount = m := Nat.mod_eq_of_lt hm

/-- Settles O31: `B * n` and `B * n + 1` are below 2^32, so BITLEN holds both exactly, and the check compares
them with `B * n`. -/
theorem capacityBoundaryIsExact : Obligations.CapacityBoundaryIsExact := by
  unfold Obligations.CapacityBoundaryIsExact
  intro s hInv hb
  obtain ⟨⟨_, hcap⟩, _⟩ := hInv
  have hprod : s.bufferLen * s.width < 2 ^ 32 - 1 :=
    calc s.bufferLen * s.width ≤ s.cap * 8 := Nat.mul_le_mul hb (width_le s)
      _ < 2 ^ 32 - 1 := by omega
  refine ⟨⟨_, exec_hide_of_fits (s := s.writeReg .bitlen _) hb ?_, rfl⟩,
    exec_hide_of_stringTooLong (s := s.writeReg .bitlen _) hb ?_⟩
  · exact (bitCount_writeReg_bitlen s (by omega)).le
  · rw [bitCount_writeReg_bitlen s (by omega)]
    exact Nat.lt_succ_self _

/-- Replacing all eight bits of a sample leaves nothing of it (R112). -/
theorem replaceLow_eight (v b : Byte) : replaceLow v 8 b.toNat = b := by
  refine BitVec.eq_of_toNat_eq ?_
  have hlow : low v.toNat 8 = v.toNat := Nat.mod_eq_of_lt v.isLt
  rw [toNat_replaceLow le_rfl b.isLt, hlow, Nat.sub_self, Nat.zero_add]

/-- Settles O35: at width eight chunk `i` is the eight bits of byte `i` of BITB, and `replaceLow_eight` puts that
byte in place of the sample. -/
theorem hideAtWidthEightCopiesTheBytes : Obligations.HideAtWidthEightCopiesTheBytes := by
  unfold Obligations.HideAtWidthEightCopiesTheBytes
  intro s hw hb hm _
  have hfits : s.bitCount ≤ s.bufferLen * s.width := by rwa [hw]
  refine ⟨_, exec_hide_of_fits hb hfits, rfl, fun i hi => ?_⟩
  have hlen : chunkLen s.bitCount 8 i = 8 := chunkLen_of_le (by omega)
  rw [setCode_byte, byte_hideLanes_of_lt hfits (by omega), hw, hideLaneByte_of_lt (by omega), hlen,
    Nat.mul_comm, ← toNat_byte_bitb, replaceLow_eight]

/-- Settles O36: with no characters every slot is a copy lane, and with no slots there is no lane at all. -/
theorem hideOfNothingAndIntoNothing : Obligations.HideOfNothingAndIntoNothing := by
  unfold Obligations.HideOfNothingAndIntoNothing
  refine fun s => ⟨fun hm hb => ?_, fun hb hm => ?_, fun hb hm => ?_⟩
  · have hfits : s.bitCount ≤ s.bufferLen * s.width := hm ▸ Nat.zero_le _
    refine ⟨_, exec_hide_of_fits hb hfits, rfl, fun i => ?_⟩
    rw [setCode_byte]
    split
    case isTrue hi => rw [byte_hideLanes_of_lt hfits hi, hideLaneByte_of_ge (hm ▸ Nat.zero_le _)]
    case isFalse hi => exact byte_hideLanes_of_ge hfits (not_lt.1 hi)
  · have hfits : s.bitCount ≤ s.bufferLen * s.width := hm ▸ Nat.zero_le _
    have hlanes : hideLanes s = s := by rw [hideLanes_eq_foldl hfits, hb, List.range_zero, List.foldl_nil]
    rw [exec_hide_of_fits (hb ▸ Nat.zero_le _) hfits, hlanes]
    rfl
  · exact exec_hide_of_stringTooLong (hb ▸ Nat.zero_le _) (by rw [hb, Nat.zero_mul]; exact hm)

/-- A HIDE that ends with OK has passed its checks and left its lanes and STATUS.CODE (R108). -/
theorem exec_hide_ok {s t : State} (h : exec .hide s = .next t) (hok : t.code = .ok) :
    s.bufferLen ≤ s.cap ∧ s.bitCount ≤ s.bufferLen * s.width ∧ t = (hideLanes s).setCode .ok := by
  rcases execHide_cases s with ⟨_, hs⟩ | ⟨_, _, hs⟩ | ⟨hb, hm, hs⟩
  · obtain rfl := Host.Outcome.next.inj (hs.symm.trans h)
    cases hok
  · obtain rfl := Host.Outcome.next.inj (hs.symm.trans h)
    cases hok
  · exact ⟨hb, hm, Host.Outcome.next.inj (h.symm.trans hs)⟩

/-- A slot of the buffer holds its lane's byte after a HIDE that ends with OK (R105, R106). -/
theorem byte_of_exec_hide_ok {s t : State} (h : exec .hide s = .next t) (hok : t.code = .ok) {i : Nat}
    (hi : i < s.bufferLen) : t.byte .dst i = hideLaneByte s.width s.bitCount i s := by
  obtain ⟨_, hm, rfl⟩ := exec_hide_ok h hok
  rw [setCode_byte, byte_hideLanes_of_lt hm hi]

/-- Replacing the `k` low bits of a sample changes it by at most `2^k - 1` (R116). -/
theorem replaceLow_close {v : Byte} {k c : Nat} (hk : k ≤ 8) (hc : c < 2 ^ k) :
    (replaceLow v k c).toNat ≤ v.toNat + (2 ^ k - 1) ∧
    v.toNat ≤ (replaceLow v k c).toNat + (2 ^ k - 1) := by
  have hlt : low v.toNat k < 2 ^ k := Nat.mod_lt _ (Nat.two_pow_pos k)
  have hle : low v.toNat k ≤ v.toNat := Nat.mod_le _ _
  rw [toNat_replaceLow hk hc]
  omega

/-- Settles O37: a slot's byte is the sample itself or the sample with at most `n` bits replaced. -/
theorem hideChangesASampleByLessThanTwoToTheWidth :
    Obligations.HideChangesASampleByLessThanTwoToTheWidth := by
  unfold Obligations.HideChangesASampleByLessThanTwoToTheWidth
  intro s t h hok i hi
  rw [byte_of_exec_hide_ok h hok hi]
  rcases lt_or_ge (i * s.width) s.bitCount with hlt | hge
  · have hk := chunkLen_le s.bitCount s.width i
    have hpow : 2 ^ chunkLen s.bitCount s.width i ≤ 2 ^ s.width := Nat.pow_le_pow_right (by omega) hk
    have hclose := replaceLow_close (v := s.byte .src i) (hk.trans (width_le s))
      (val_bits_lt s (i * s.width) (chunkLen s.bitCount s.width i))
    rw [hideLaneByte_of_lt hlt]
    omega
  · rw [hideLaneByte_of_ge hge]
    omega

/-- Settles O39: the checks read the registers and SAMPLE_CAP alone, and `hideLaneByte_congr` says what the byte
of a slot rests on. -/
theorem hideDependsOnlyOnItsOperands : Obligations.HideDependsOnlyOnItsOperands := by
  unfold Obligations.HideDependsOnlyOnItsOperands
  intro s u hnbits hbuflen hbitlen hcap hsrc hbit
  have hn : u.width = s.width := by rw [State.width, State.width, hnbits]
  have hb : u.bufferLen = s.bufferLen := by rw [State.bufferLen, State.bufferLen, hbuflen]
  have hm : u.bitCount = s.bitCount := by rw [State.bitCount, State.bitCount, hbitlen]
  obtain ⟨t, ht⟩ := exec_next .hide s
  obtain ⟨v, hv⟩ := exec_next .hide u
  have hcode : t.code = v.code := by
    rw [code_of_exec_hide ht, code_of_exec_hide hv, hn, hb, hm, hcap]
  refine ⟨t, v, ht, hv, hcode, fun hok i hi => ?_⟩
  rw [byte_of_exec_hide_ok ht hok hi, byte_of_exec_hide_ok hv (hcode ▸ hok) (hb ▸ hi), hn, hm]
  exact hideLaneByte_congr (hsrc i hi) fun x _ hx => hbit x (by omega)

end Sys2Proof.Machine
end

section
/-! PROOFS. REVEAL's lanes in any order (spec/41_reveal.md R135), and a command issued twice (spec/40_hide.md
R114): the lanes of a command commute with each other, and each of them does nothing the second time. -/

namespace Sys2Proof.Machine

/-- Of two writes at one index of a memory the second decides; this needs no canonical form. -/
@[simp] theorem set_set (m : Memory) (i : Nat) (v w : Byte) : (m.set i v).set i w = m.set i w := by
  induction m with
  | nil => simp [Memory.set]
  | cons c rest ih =>
    obtain ⟨a, x⟩ := c
    rcases Nat.lt_trichotomy i a with hi | rfl | hi
    · simp [Memory.set, hi]
    · simp [Memory.set]
    · simp [Memory.set, hi.ne', hi.not_gt, ih]

/-- Of two writes of one byte the second decides. -/
@[simp] theorem setByte_setByte_same (s : State) (b : Bank) (i : Nat) (v w : Byte) :
    (s.setByte b i v).setByte b i w = s.setByte b i w := by
  cases b with
  | src => exact congrArg (fun m => { s with src := m }) (set_set s.src i v w)
  | dst => exact congrArg (fun m => { s with dst := m }) (set_set s.dst i v w)
  | bitb => exact congrArg (fun m => { s with bitb := m }) (set_set s.bitb i v w)

/-- Replacements of two different bits of a byte can be exchanged (R16). -/
theorem replaceBit_comm (v : Byte) {p q : Nat} (hp : p < 8) (hq : q < 8) (hpq : p ≠ q) (b c : Bool) :
    replaceBit (replaceBit v p b) q c = replaceBit (replaceBit v q c) p b := by
  refine BitVec.eq_of_getLsbD_eq fun x _ => ?_
  simp only [getLsbD_replaceBit _ _ _ _ hp, getLsbD_replaceBit _ _ _ _ hq]
  by_cases hqx : q = x
  · rw [if_pos hqx, if_neg (by omega), if_pos hqx]
  · rw [if_neg hqx, if_neg hqx]

/-- Replacing a bit by what it has been replaced by changes nothing (R16). -/
theorem replaceBit_replaceBit_same (v : Byte) {p : Nat} (hp : p < 8) (b : Bool) :
    replaceBit (replaceBit v p b) p b = replaceBit v p b := by
  refine BitVec.eq_of_getLsbD_eq fun x _ => ?_
  simp only [getLsbD_replaceBit _ _ _ _ hp]
  split <;> rfl

/-- A bit of BIT written twice alike is written once. -/
theorem setBit_setBit_same (s : State) (j : Nat) (b : Bool) : (s.setBit j b).setBit j b = s.setBit j b := by
  unfold State.setBit
  rw [byte_setByte_same, replaceBit_replaceBit_same _ (by omega), setByte_setByte_same]

/-- Writes of two different bits of BIT can be exchanged, in one byte or in two (R16). -/
theorem setBit_comm (s : State) {j k : Nat} (hjk : j ≠ k) (b c : Bool) :
    (s.setBit j b).setBit k c = (s.setBit k c).setBit j b := by
  unfold State.setBit
  by_cases hbyte : j / 8 = k / 8
  · rw [hbyte, byte_setByte_same, byte_setByte_same, setByte_setByte_same, setByte_setByte_same,
      replaceBit_comm _ (by omega) (by omega) (by omega)]
  · rw [byte_setByte, byte_setByte, if_neg fun h => hbyte h.2, if_neg fun h => hbyte h.2.symm]
    exact congrArg (fun m => { s with bitb := m }) (set_comm s.bitb hbyte _ _)

/-- Character `j` of REVEAL's result, put in its place: what `revealBit` does for one slot and one bit of it,
named by the index it writes (R125). `revealLane_eq` ties it to the model's lanes. -/
def revealChar (n outlen j : Nat) (u : State) : State :=
  if j < outlen then u.setBit j ((u.byte .src (j / n)).getLsbD (n - 1 - j % n)) else u

/-- Two characters can be put in their places in either order: neither rests on BIT. -/
theorem revealChar_comm (n outlen i j : Nat) (u : State) :
    revealChar n outlen j (revealChar n outlen i u) = revealChar n outlen i (revealChar n outlen j u) := by
  by_cases hij : i = j
  · rw [hij]
  · unfold revealChar
    by_cases hi : i < outlen
    · by_cases hj : j < outlen
      · simp only [hi, hj, if_true, byte_setBit_src]
        exact setBit_comm u hij _ _
      · simp only [hj, if_false]
    · simp only [hi, if_false]

/-- A character put in its place twice is put there once. -/
theorem revealChar_idem (n outlen j : Nat) (u : State) :
    revealChar n outlen j (revealChar n outlen j u) = revealChar n outlen j u := by
  unfold revealChar
  split
  · rw [byte_setBit_src, setBit_setBit_same]
  · rfl

/-- A lane of REVEAL puts its `n` characters in their places (R125, R127). -/
theorem revealLane_eq (n outlen i : Nat) (u : State) :
    revealLane n outlen i u = forRange 0 n (fun t => revealChar n outlen (i * n + t)) u := by
  refine forRange_congr u fun t _ ht => funext fun v => ?_
  have hdiv : (i * n + t) / n = i := by
    rw [Nat.mul_comm, Nat.mul_add_div (by omega), Nat.div_eq_of_lt (by omega), Nat.add_zero]
  have hmod : (i * n + t) % n = t := by rw [Nat.mul_comm, Nat.mul_add_mod, Nat.mod_eq_of_lt (by omega)]
  rw [revealChar, hdiv, hmod]
  rfl

/-- Two lanes of REVEAL can be exchanged: each is made of characters, and any two of those can be (R135). -/
theorem revealLane_comm (n outlen i j : Nat) (u : State) :
    revealLane n outlen j (revealLane n outlen i u) = revealLane n outlen i (revealLane n outlen j u) := by
  have hchar : ∀ k v, revealChar n outlen k (revealLane n outlen i v) =
      revealLane n outlen i (revealChar n outlen k v) := fun k v => by
    rw [revealLane_eq, revealLane_eq]
    exact (forRange_comm (revealChar n outlen k) 0 n (fun _ _ => revealChar_comm n outlen _ _ _) v).symm
  rw [revealLane_eq n outlen j, revealLane_eq n outlen j]
  exact forRange_comm (revealLane n outlen i) 0 n (fun _ _ => hchar _ _) u

/-- A loop whose rounds commute and do nothing the second time does nothing the second time. -/
theorem forRange_idem {σ : Type} (lo count : Nat) {body : Nat → σ → σ}
    (hcomm : ∀ i j u, body j (body i u) = body i (body j u)) (hidem : ∀ i u, body i (body i u) = body i u)
    (s : σ) : forRange lo count body (forRange lo count body s) = forRange lo count body s := by
  induction count with
  | zero => rfl
  | succ k ih =>
    calc forRange lo (k + 1) body (forRange lo (k + 1) body s)
        = body (lo + k) (forRange lo k body (body (lo + k) (forRange lo k body s))) := rfl
      _ = body (lo + k) (body (lo + k) (forRange lo k body (forRange lo k body s))) := by
          rw [forRange_comm (body (lo + k)) lo k fun _ _ => hcomm _ _ _]
      _ = forRange lo (k + 1) body s := by rw [hidem, ih, forRange_succ]

/-- A lane of REVEAL does nothing the second time. -/
theorem revealLane_idem (n outlen i : Nat) (u : State) :
    revealLane n outlen i (revealLane n outlen i u) = revealLane n outlen i u := by
  simp only [revealLane_eq]
  exact forRange_idem 0 n (fun _ _ => revealChar_comm n outlen _ _) (fun _ => revealChar_idem n outlen _) u

/-- The lanes of a REVEAL are one loop over the samples it reads (R120). -/
theorem revealLanes_eq_forRange (s : State) :
    revealLanes s = forRange 0 (samplesRead s.requested s.width s.bufferLen)
      (revealLane s.width (resultCount s.requested s.width s.bufferLen)) s := rfl

/-- Settles O47: the lanes in rising order are a fold, which `revealLane_comm` makes the same for every
permutation. -/
theorem revealIsTheSameInEveryLaneOrder : Obligations.RevealIsTheSameInEveryLaneOrder := by
  unfold Obligations.RevealIsTheSameInEveryLaneOrder
  intro s order hb hperm
  refine ⟨_, exec_reveal_of_fits hb, rfl, fun j => ?_⟩
  rw [setCode_bit, setOutlen_bit, revealLanes_eq_forRange, forRange_eq_foldl, ← List.range_eq_range',
    hperm.foldl_eq' fun i _ j _ u => revealLane_comm _ _ i j u]

/-- A command that does not end with OK does the same again: it has written STATUS.CODE alone, which no command
reads (R168, R169). -/
theorem exec_again_of_failed {i : Instr} {s t : State} (h : exec i s = .next t) (hfail : t.code ≠ .ok) :
    exec i t = .next t := by
  have hsetCode := eq_setCode_of_exec_failed h hfail
  calc exec i t = exec i (s.setCode t.code) := congrArg (exec i) hsetCode
    _ = exec i s := exec_setCode i s _
    _ = .next t := h

/-- A lane of HIDE does nothing the second time: it reads no byte of DST. -/
theorem hideLane_idem (n m i : Nat) (u : State) :
    hideLane n m i (hideLane n m i u) = hideLane n m i u := by
  simp only [hideLane_eq, hideLaneByte_setByte_dst, setByte_setByte_same]

/-- The lanes of a HIDE are one loop over the slots of the buffer (R100, R109). -/
theorem hideLanes_eq_forRange {s : State} (hm : s.bitCount ≤ s.bufferLen * s.width) :
    hideLanes s = forRange 0 s.bufferLen (hideLane s.width s.bitCount) s := by
  rw [hideLanes_eq_foldl hm, forRange_eq_foldl, List.range_eq_range']

/-- The lanes of a HIDE do nothing the second time (R114). -/
theorem hideLanes_idem {s : State} (hm : s.bitCount ≤ s.bufferLen * s.width) :
    hideLanes (hideLanes s) = hideLanes s := by
  have hn : (hideLanes s).width = s.width := by rw [hideLanes_frame]; rfl
  have hb : (hideLanes s).bufferLen = s.bufferLen := by rw [hideLanes_frame]; rfl
  have hc : (hideLanes s).bitCount = s.bitCount := by rw [hideLanes_frame]; rfl
  rw [hideLanes_eq_forRange (s := hideLanes s) (by rwa [hn, hb, hc]), hn, hb, hc, hideLanes_eq_forRange hm]
  exact forRange_idem 0 _ (hideLane_comm _ _) (hideLane_idem _ _) s

/-- Settles O38: after an error nothing has changed that a HIDE reads, and after a success its lanes do nothing
the second time. -/
theorem hideTwiceIsHideOnce : Obligations.HideTwiceIsHideOnce := by
  unfold Obligations.HideTwiceIsHideOnce
  intro s t _ h
  by_cases hok : t.code = .ok
  · obtain ⟨hb, hm, rfl⟩ := exec_hide_ok h hok
    have hb' : (hideLanes s).bufferLen ≤ (hideLanes s).cap := by rw [hideLanes_frame]; exact hb
    have hm' : (hideLanes s).bitCount ≤ (hideLanes s).bufferLen * (hideLanes s).width := by
      rw [hideLanes_frame]; exact hm
    rw [exec_setCode, exec_hide_of_fits hb' hm', hideLanes_idem hm]
  · exact exec_again_of_failed h hok

/-- The lanes of a REVEAL carry along whatever OUTLEN held: no lane reads or writes it. -/
theorem revealLanes_setOutlen (s : State) (v : Nat) :
    revealLanes (s.setOutlen v) = (revealLanes s).setOutlen v := by
  refine forRange_comm (fun u : State => u.setOutlen v) 0 _ (fun i u => ?_) s
  refine forRange_comm (fun u : State => u.setOutlen v) 0 _ (fun t w => ?_) u
  unfold revealBit
  simp only
  split <;> rfl

/-- The lanes of a REVEAL do nothing the second time. -/
theorem revealLanes_idem (s : State) : revealLanes (revealLanes s) = revealLanes s := by
  have hn : (revealLanes s).width = s.width := by rw [revealLanes_frame]; rfl
  have hb : (revealLanes s).bufferLen = s.bufferLen := by rw [revealLanes_frame]; rfl
  have hl : (revealLanes s).requested = s.requested := by rw [revealLanes_frame]; rfl
  rw [revealLanes_eq_forRange (revealLanes s), hn, hb, hl]
  exact forRange_idem 0 _ (revealLane_comm _ _) (revealLane_idem _ _) s

/-- Settles O48: after an error nothing has changed that a REVEAL reads, and after a success its lanes do nothing
the second time and OUTLEN receives the same length. -/
theorem revealTwiceIsRevealOnce : Obligations.RevealTwiceIsRevealOnce := by
  unfold Obligations.RevealTwiceIsRevealOnce
  intro s t _ h
  by_cases hok : t.code = .ok
  · obtain ⟨hb, rfl⟩ := execReveal_ok h hok
    have hb' : (revealLanes s).bufferLen ≤ (revealLanes s).cap := by rw [revealLanes_frame]; exact hb
    have hcount : resultCount (revealLanes s).requested (revealLanes s).width (revealLanes s).bufferLen =
        resultCount s.requested s.width s.bufferLen := by rw [revealLanes_frame]; rfl
    rw [exec_setCode, exec_reveal_of_fits (s := (revealLanes s).setOutlen _) hb', revealLanes_setOutlen,
      revealLanes_idem]
    exact congrArg (fun v => Host.Outcome.next (((revealLanes s).setOutlen v).setCode .ok)) hcount
  · exact exec_again_of_failed h hok

end Sys2Proof.Machine
end

section
/-! PROOFS. REVEAL's special cases (spec/41_reveal.md R129 to R133): the length of its result by the place of the
request, full width and width one, what the result rests on, and samples that nothing has written. -/

namespace Sys2Proof.Machine

/-- The fields that the ceiling of `L / n` counts, less what is dropped, are the requested characters (R126). -/
theorem ceilDiv_mul_sub_dropCount (l : Int) (n : Nat) : ceilDiv l n * n - dropCount l n = l := by
  have hdiv := Int.mul_ediv_add_emod (-l) n
  rw [ceilDiv_eq_neg_ediv, dropCount_eq]
  linarith

/-- A request is non-positive exactly when its ceiling is (R12). -/
theorem ceilDiv_le_zero_iff {n : Nat} (hn : 1 ≤ n) (l : Int) : ceilDiv l n ≤ 0 ↔ l ≤ 0 := by
  simpa using ceilDiv_le_iff hn l 0

/-- For a request that the buffer reaches, REVEAL reads the ceiling of `L / n` samples (R123). -/
theorem samplesRead_of_reachable {l : Int} {n b : Nat} (hn : 1 ≤ n) (hpos : 1 ≤ l) (hle : l ≤ b * n) :
    (samplesRead l n b : Int) = ceilDiv l n := by
  have hzero := ceilDiv_le_zero_iff hn l
  have hb := ceilDiv_le_iff hn l b
  simp only [samplesRead]
  rw [if_neg (by omega)]
  exact Int.toNat_of_nonneg (by omega)

/-- For a request that is non-positive or beyond the buffer, REVEAL reads the whole buffer (R124). -/
theorem samplesRead_of_unreachable {l : Int} {n b : Nat} (hn : 1 ≤ n) (h : l ≤ 0 ∨ b * n < l) :
    samplesRead l n b = b := by
  have hzero := ceilDiv_le_zero_iff hn l
  have hb := ceilDiv_le_iff hn l b
  simp only [samplesRead]
  exact if_pos (by omega)

/-- A request that the buffer reaches gives exactly the requested characters (R129). -/
theorem resultCount_of_reachable {l : Int} {n b : Nat} (hn : 1 ≤ n) (hpos : 1 ≤ l) (hle : l ≤ b * n) :
    (resultCount l n b : Int) = l := by
  rw [natCast_resultCount, samplesRead_of_reachable hn hpos hle, ceilDiv_mul_sub_dropCount]
  omega

/-- Any other request gives the whole buffer less the residue of `-L` (R130, R131). -/
theorem resultCount_of_unreachable {l : Int} {n b : Nat} (hn : 1 ≤ n) (h : l ≤ 0 ∨ b * n < l) :
    (resultCount l n b : Int) = max 0 (b * n - -l % n) := by
  rw [natCast_resultCount, samplesRead_of_unreachable hn h, dropCount_eq]

/-- A request is reached by the buffer or is not. -/
theorem reachable_or_unreachable (l : Int) (n b : Nat) : (1 ≤ l ∧ l ≤ b * n) ∨ l ≤ 0 ∨ b * n < l := by
  omega

/-- A buffer of at least one sample gives at least one character (R126). -/
theorem one_le_resultCount (l : Int) {n b : Nat} (hn : 1 ≤ n) (hb : 1 ≤ b) : 1 ≤ resultCount l n b := by
  rcases reachable_or_unreachable l n b with ⟨hpos, hle⟩ | hun
  · have := resultCount_of_reachable hn hpos hle
    omega
  · have hcount := resultCount_of_unreachable (b := b) hn hun
    have hdrop : -l % (n : Int) < n := Int.emod_lt_of_pos _ (by omega)
    have hfield : n ≤ b * n := Nat.le_mul_of_pos_left n hb
    zify at hfield
    omega

/-- An empty buffer gives no character (R132). -/
theorem resultCount_empty (l : Int) {n : Nat} (hn : 1 ≤ n) : resultCount l n 0 = 0 := by
  have hle := resultCount_le l n 0 hn
  rwa [Nat.le_zero.1 (samplesRead_le l n 0), Nat.zero_mul, Nat.le_zero] at hle

/-- Settles O45: the lengths by the place of the request, and of an empty buffer no sample is read. -/
theorem revealResultLengths : Obligations.RevealResultLengths := by
  unfold Obligations.RevealResultLengths
  intro s hInv hb
  have hn := width_pos s
  have hexec := exec_reveal_of_fits hb
  refine ⟨_, hexec, rfl, ?_⟩
  rw [resultLen_of_execReveal_ok hInv hexec rfl, ← requested_eq]
  refine ⟨resultCount_of_reachable hn, fun hl => resultCount_of_unreachable hn (.inl hl), fun hl => ?_,
    fun hB => ?_, one_le_resultCount _ hn⟩
  · have hcount := resultCount_of_unreachable hn (.inr hl)
    have hdrop : 0 ≤ -s.requested % (s.width : Int) := Int.emod_nonneg _ (by omega)
    have hfields : (0 : Int) ≤ s.bufferLen * s.width := by positivity
    exact ⟨hcount, by omega⟩
  · rw [revealLanes_eq_forRange, hB, resultCount_empty _ hn, Nat.le_zero.1 (samplesRead_le _ _ 0)]
    rfl

/-- At width eight a byte of the result is the sample (R133). -/
theorem byte_bitb_revealLanes {s : State} (hw : s.width = 8) {i : Nat}
    (hi : 8 * i + 8 ≤ resultCount s.requested s.width s.bufferLen) :
    (revealLanes s).byte .bitb i = s.byte .src i := by
  refine BitVec.eq_of_getLsbD_eq fun x hx => ?_
  have hdiv : (8 * i + (7 - x)) / 8 = i := by omega
  have hmod : 8 - 1 - (8 * i + (7 - x)) % 8 = x := by omega
  rw [getLsbD_byte_bitb _ _ hx, bit_revealLanes, if_pos (by omega), hw, hdiv, hmod]

/-- Settles O46: at width eight by `byte_bitb_revealLanes`; at width one the residue is 0, and a field is the
lowest bit. -/
theorem revealAtWidthEightAndOne : Obligations.RevealAtWidthEightAndOne := by
  unfold Obligations.RevealAtWidthEightAndOne
  intro s hInv hb
  have hexec := exec_reveal_of_fits hb
  have hlen := resultLen_of_execReveal_ok hInv hexec rfl
  refine ⟨_, hexec, fun hw i hi => ?_, fun hw => ⟨?_, fun j hj => ?_⟩⟩
  · rw [hlen] at hi
    rw [setCode_byte, setOutlen_byte, byte_bitb_revealLanes hw hi]
  · rw [hlen, hw, ← requested_eq]
    split
    case isTrue hreach => exact resultCount_of_reachable le_rfl hreach.1 (by omega)
    case isFalse hnot =>
      rw [resultCount_of_unreachable le_rfl (by omega), Nat.cast_one, Int.emod_one]
      omega
  · rw [hlen] at hj
    rw [setCode_bit, setOutlen_bit, bit_revealLanes, if_pos hj, hw, Nat.div_one, Nat.mod_one]

/-- A character of the result comes from a sample of the buffer (R124). -/
theorem div_width_lt_bufferLen {s : State} {j : Nat}
    (hj : j < resultCount s.requested s.width s.bufferLen) : j / s.width < s.bufferLen := by
  have hcount := resultCount_le s.requested s.width s.bufferLen (width_pos s)
  have hread := samplesRead_le s.requested s.width s.bufferLen
  exact ((Nat.div_lt_iff_lt_mul (width_pos s)).2 (hj.trans_le hcount)).trans_le hread

/-- Settles O49: the check reads the registers and SAMPLE_CAP alone, and the characters come from the samples of
the buffer. -/
theorem revealDependsOnlyOnItsOperands : Obligations.RevealDependsOnlyOnItsOperands := by
  unfold Obligations.RevealDependsOnlyOnItsOperands
  intro s u hInv hnbits hbuflen hlength hcap hsrc
  have hn : u.width = s.width := by rw [State.width, State.width, hnbits]
  have hb : u.bufferLen = s.bufferLen := by rw [State.bufferLen, State.bufferLen, hbuflen]
  have hl : u.requested = s.requested := by rw [State.requested, State.requested, hlength]
  obtain ⟨t, ht⟩ := exec_next .reveal s
  obtain ⟨v, hv⟩ := exec_next .reveal u
  have hcode : t.code = v.code := by rw [code_of_exec_reveal ht, code_of_exec_reveal hv, hb, hcap]
  refine ⟨t, v, ht, hv, hcode, fun hok => ?_⟩
  have hlen := resultLen_of_execReveal_ok hInv ht hok
  obtain ⟨_, rfl⟩ := execReveal_ok ht hok
  obtain ⟨_, rfl⟩ := execReveal_ok hv (hcode ▸ hok)
  refine ⟨?_, fun j hj => ?_⟩
  · rw [hn, hb, hl]
    rfl
  · rw [hlen] at hj
    simp only [setCode_bit, setOutlen_bit, bit_revealLanes, hn, hb, hl, if_pos hj,
      hsrc _ (div_width_lt_bufferLen hj)]

/-- Settles O50: LENGTH is 0, so the whole buffer of two samples is read, and at width eight the bytes of the
result are the samples. -/
theorem revealOfUnwrittenSamples : Obligations.RevealOfUnwrittenSamples := by
  unfold Obligations.RevealOfUnwrittenSamples
  intro cap hcap s hs
  have hw : s.width = 8 := by rw [hs]; rfl
  have hb : s.bufferLen = 2 := by rw [hs]; rfl
  have hl : s.requested = 0 := by rw [hs]; rfl
  have hsrc : ∀ i, s.byte .src i = Config.resetByte s.epoch .src i := fun i => by rw [hs]; rfl
  have hcount : resultCount s.requested s.width s.bufferLen = 16 := by rw [hl, hw, hb]; rfl
  have hfits : s.bufferLen ≤ s.cap := by rw [hb, hs]; exact hcap
  refine ⟨_, exec_reveal_of_fits hfits, rfl, ?_, ?_, ?_⟩
  · rw [hcount]; rfl
  · rw [setCode_byte, setOutlen_byte, byte_bitb_revealLanes hw (by omega), hsrc]
  · rw [setCode_byte, setOutlen_byte, byte_bitb_revealLanes hw (by omega), hsrc]

end Sys2Proof.Machine
end

section
/-! PROOFS. The round trip (spec/41_reveal.md section 4, R134): what a REVEAL of a HIDE's output returns, character
by character. -/

namespace Sys2Proof.Machine

/-- OUTLEN holds any length below 2^32 exactly (R25). -/
theorem resultLen_setOutlen (s : State) {v : Nat} (hv : v < 2 ^ 32) : (s.setOutlen v).resultLen = v :=
  Nat.mod_eq_of_lt hv

/-- `BITS(a, k)` of two states are one string exactly when the `k` bits from `a` on agree (R16). -/
theorem bits_eq_bits_iff {u v : State} {a k : Nat} :
    u.bits a k = v.bits a k ↔ ∀ t, t < k → u.bit (a + t) = v.bit (a + t) := by
  refine ⟨fun h t ht => ?_, bits_congr⟩
  exact List.map_inj_left.1 h t (List.mem_range.2 ht)

/-- A request for the `m` characters that a buffer holds gives those `m`, or the whole buffer when `m` is 0
(R129, R130). -/
theorem resultCount_natCast {m n b : Nat} (hn : 1 ≤ n) (hm : m ≤ b * n) :
    resultCount m n b = if m = 0 then b * n else m := by
  split
  case isTrue hzero =>
    have hcount := resultCount_of_unreachable (l := m) (b := b) hn (.inl (by omega))
    rw [hzero, Nat.cast_zero, neg_zero, Int.zero_emod, sub_zero] at hcount
    have hfields : (0 : Int) ≤ b * n := by positivity
    rw [hzero]
    zify
    exact hcount.trans (max_eq_right hfields)
  case isFalse hpos =>
    exact_mod_cast resultCount_of_reachable (l := m) (b := b) hn (by omega) (by exact_mod_cast hm)

/-- A REVEAL from the output of a HIDE, with LENGTH the length of the hidden string, returns as many characters
as were hidden, or the whole buffer when that is none; character `j` is bit `n - 1 - j mod n` of output sample
`j div n`. -/
theorem exec_reveal_of_hidden {s t u : State} (hInv : s.Inv) (h : exec .hide s = .next t) (hok : t.code = .ok)
    (hcap : u.cap = s.cap) (hnbits : u.nbits = s.nbits) (hbuflen : u.buflen = s.buflen)
    (hsrc : ∀ i, i < s.bufferLen → u.byte .src i = t.byte .dst i) (hlength : u.length.toInt = s.bitCount) :
    ∃ v, exec .reveal u = .next v ∧ v.code = .ok ∧
      v.resultLen = (if s.bitCount = 0 then s.bufferLen * s.width else s.bitCount) ∧
      ∀ j, j < v.resultLen →
        v.bit j = (t.byte .dst (j / s.width)).getLsbD (s.width - 1 - j % s.width) := by
  obtain ⟨hb, hm, _⟩ := exec_hide_ok h hok
  obtain ⟨⟨_, hcapMax⟩, _⟩ := hInv
  have hn : u.width = s.width := by rw [State.width, State.width, hnbits]
  have hB : u.bufferLen = s.bufferLen := by rw [State.bufferLen, State.bufferLen, hbuflen]
  have hfits : u.bufferLen ≤ u.cap := by rwa [hB, hcap]
  have hmax := resultCount_le_of_bufferLen_le hfits
  have hcount : resultCount u.requested u.width u.bufferLen =
      if s.bitCount = 0 then s.bufferLen * s.width else s.bitCount := by
    rw [requested_eq, hlength, hn, hB, resultCount_natCast (width_pos s) hm]
  have hlen : ((revealLanes u).setOutlen (resultCount u.requested u.width u.bufferLen)).resultLen =
      resultCount u.requested u.width u.bufferLen := resultLen_setOutlen _ (by omega)
  refine ⟨_, exec_reveal_of_fits hfits, rfl, hlen.trans hcount, fun j hj => ?_⟩
  have hj' : j < resultCount u.requested u.width u.bufferLen := hlen ▸ hj
  have hslot := div_width_lt_bufferLen hj'
  rw [hn, hB] at hslot
  rw [setCode_bit, setOutlen_bit, bit_revealLanes, if_pos hj', hn, hsrc _ hslot]

/-- Character `j` of a hidden string, as REVEAL looks for it in its output sample: a character of the chunk, or a
bit of the cover where a short last chunk does not reach (R105, R134). -/
theorem getLsbD_hidden {s t : State} (h : exec .hide s = .next t) (hok : t.code = .ok) {j : Nat}
    (hj : j < s.bitCount) :
    (t.byte .dst (j / s.width)).getLsbD (s.width - 1 - j % s.width) =
      if s.width - 1 - j % s.width < chunkLen s.bitCount s.width (j / s.width)
      then s.bit (j / s.width * s.width +
        (chunkLen s.bitCount s.width (j / s.width) + j % s.width - s.width))
      else (s.byte .src (j / s.width)).getLsbD (s.width - 1 - j % s.width) := by
  obtain ⟨_, hm, _⟩ := exec_hide_ok h hok
  have hslot : j / s.width < s.bufferLen := (Nat.div_lt_iff_lt_mul (width_pos s)).2 (hj.trans_le hm)
  have hchunk : j / s.width * s.width < s.bitCount := (Nat.div_mul_le_self j s.width).trans_lt hj
  have hx : j % s.width < s.width := Nat.mod_lt _ (width_pos s)
  have hk := chunkLen_le s.bitCount s.width (j / s.width)
  rw [byte_of_exec_hide_ok h hok hslot, hideLaneByte_of_lt hchunk,
    getLsbD_replaceLow _ _ _ _ (hk.trans (width_le s)) (val_bits_lt _ _ _), testBit_val_bits]
  split
  case isTrue hlt => congr 2; omega
  case isFalse => rfl

/-- A character before the last short chunk stands where REVEAL looks for it (R134). -/
theorem getLsbD_hidden_of_full {s t : State} (h : exec .hide s = .next t) (hok : t.code = .ok) {j : Nat}
    (hj : j < s.bitCount / s.width * s.width) :
    (t.byte .dst (j / s.width)).getLsbD (s.width - 1 - j % s.width) = s.bit j := by
  have hn := width_pos s
  have hle := Nat.div_mul_le_self s.bitCount s.width
  have hfull : (j / s.width + 1) * s.width ≤ s.bitCount :=
    (Nat.mul_le_mul_right _ ((Nat.div_lt_iff_lt_mul hn).2 hj)).trans hle
  have hmod := Nat.mod_lt j hn
  have hdiv := Nat.div_add_mod' j s.width
  rw [getLsbD_hidden h hok (hj.trans_le hle), chunkLen_of_le hfull, if_pos (by omega),
    Nat.add_sub_cancel_left, hdiv]

/-- The chunk after the last full one has `m mod n` characters (R104). -/
theorem chunkLen_div {m n : Nat} (hn : 1 ≤ n) : chunkLen m n (m / n) = m % n := by
  have hdiv := Nat.div_add_mod' m n
  have hmod := Nat.mod_lt m hn
  rw [chunkLen]
  omega

/-- Index `x` of the last short chunk is bit `n - 1 - x` of its sample (R134). -/
theorem div_mod_of_tail {m n x : Nat} (hn : 1 ≤ n) (hx : x < m % n) :
    (m / n * n + x) / n = m / n ∧ (m / n * n + x) % n = x := by
  have hlt : x < n := hx.trans (Nat.mod_lt m hn)
  rw [Nat.mul_comm, Nat.mul_add_div hn, Nat.mul_add_mod, Nat.div_eq_of_lt hlt, Nat.mod_eq_of_lt hlt]
  exact ⟨rfl, rfl⟩

/-- Character `x` of the last short chunk, as REVEAL looks for it: a cover bit while the chunk does not reach, and
then a character of the chunk, from its first (R134). -/
theorem getLsbD_hidden_tail {s t : State} (h : exec .hide s = .next t) (hok : t.code = .ok) {x : Nat}
    (hx : x < s.bitCount % s.width) :
    (t.byte .dst (s.bitCount / s.width)).getLsbD (s.width - 1 - x) =
      if s.bitCount % s.width ≤ s.width - 1 - x
      then (s.byte .src (s.bitCount / s.width)).getLsbD (s.width - 1 - x)
      else s.bit (s.bitCount / s.width * s.width + (s.bitCount % s.width + x - s.width)) := by
  obtain ⟨hdiv, hmod⟩ := div_mod_of_tail (width_pos s) hx
  have hsum := Nat.div_add_mod' s.bitCount s.width
  have hbit := getLsbD_hidden h hok (j := s.bitCount / s.width * s.width + x) (by omega)
  rw [hdiv, hmod, chunkLen_div (width_pos s)] at hbit
  rw [hbit, ← ite_not]
  simp only [not_lt]

/-- Settles O51: `exec_reveal_of_hidden` gives the characters as bits of the output samples. The full chunks are
the string (`getLsbD_hidden_of_full`), so with a short last chunk it comes back exactly when its tail does, and
`getLsbD_hidden_tail` says what the tail is. -/
theorem revealAfterHideReturns : Obligations.RevealAfterHideReturns := by
  unfold Obligations.RevealAfterHideReturns
  intro s t u hInv h hok hcap hnbits hbuflen hsrc hlength
  obtain ⟨v, hv, hvok, hlen, hbit⟩ := exec_reveal_of_hidden hInv h hok hcap hnbits hbuflen hsrc hlength
  have hle := Nat.div_mul_le_self s.bitCount s.width
  have hfull : 1 ≤ s.bitCount → ∀ j, j < s.bitCount / s.width * s.width → v.bit j = s.bit j := by
    intro hpos j hj
    rw [hbit j (by rw [hlen, if_neg (by omega)]; omega), getLsbD_hidden_of_full h hok hj]
  refine ⟨v, hv, hvok, fun hpos hdvd => ?_, fun hdvd => ?_, fun hzero => ?_⟩
  · rw [if_neg (by omega)] at hlen
    refine ⟨hlen, hlen ▸ bits_congr fun j hj => ?_⟩
    rw [Nat.zero_add, hfull hpos j (by rwa [Nat.div_mul_cancel hdvd, ← hlen])]
  · have hpos : 1 ≤ s.bitCount := Nat.pos_of_ne_zero fun hzero => hdvd (hzero ▸ dvd_zero _)
    have hsum := Nat.div_add_mod' s.bitCount s.width
    rw [if_neg (by omega)] at hlen
    have htail : ∀ x, x < s.bitCount % s.width → v.bit (s.bitCount / s.width * s.width + x) =
        (t.byte .dst (s.bitCount / s.width)).getLsbD (s.width - 1 - x) := fun x hx => by
      obtain ⟨hdiv, hmod⟩ := div_mod_of_tail (width_pos s) hx
      rw [hbit _ (by omega), hdiv, hmod]
    refine ⟨hlen, bits_congr fun j hj => ?_, fun x hx => ?_, ?_⟩
    · rw [Nat.zero_add, hfull hpos j hj]
    · rw [htail x hx, getLsbD_hidden_tail h hok hx]
    · rw [bits_eq_bits_iff]
      simp only [Nat.zero_add]
      refine ⟨fun hall x hx => ?_, fun hx j hj => ?_⟩
      · rw [← htail x hx, hall _ (by omega)]
      · rcases lt_or_ge j (s.bitCount / s.width * s.width) with hlt | hge
        · exact hfull hpos j hlt
        · obtain ⟨x, rfl⟩ := Nat.exists_eq_add_of_le hge
          rw [htail x (by omega), hx x (by omega)]
  · rw [if_pos hzero] at hlen
    exact ⟨hlen, hbit⟩

end Sys2Proof.Machine
end

section
/-! PROOFS. Bit strings and bytes (spec/20_memory.md R51, spec/45_host_binarycodec.md R140, R141, R145): packing,
unpacking, and the bytes of BITB that hold a bit string. -/

namespace Sys2Proof.Machine

/-- Byte `k` of the packing of a bit string, which is missing characters at its end (R51, R141). -/
def packedByte (s : BitString) (k : Nat) : Byte :=
  BitVec.ofNat 8 (val ((List.range 8).map fun t => s.getD (8 * k + t) false))

/-- A bit string packs into its bytes, the last one padded (R51, R141). -/
theorem packBits_eq_map (s : BitString) :
    packBits s = (List.range ((s.length + 7) / 8)).map (packedByte s) := rfl

/-- Bit `x` of packed byte `k` is character `8k + (7 - x)`, or 0 beyond the string (R51, R141). -/
theorem getLsbD_packedByte (s : BitString) (k : Nat) {x : Nat} (hx : x < 8) :
    (packedByte s k).getLsbD x = s.getD (8 * k + (7 - x)) false := by
  rw [packedByte, BitVec.getLsbD_ofNat, decide_eq_true hx, Bool.true_and, testBit_val,
    List.getElem?_reverse (by simpa using hx), List.getElem?_map, List.length_map, List.length_range,
    List.getElem?_range (by omega), Option.map_some, Option.getD_some]

/-- A string of eight characters in front is the first packed byte, and the rest packs as it does alone. -/
theorem packBits_append {c : BitString} (hc : c.length = 8) (s : BitString) :
    packBits (c ++ s) = packedByte c 0 :: packBits s := by
  have hcount : ((c ++ s).length + 7) / 8 = (s.length + 7) / 8 + 1 := by
    rw [List.length_append, hc]; omega
  have hfirst : packedByte (c ++ s) 0 = packedByte c 0 := by
    refine BitVec.eq_of_getLsbD_eq fun x hx => ?_
    rw [getLsbD_packedByte _ _ hx, getLsbD_packedByte _ _ hx, List.getD_append _ _ _ _ (by omega)]
  have hrest : packedByte (c ++ s) ∘ Nat.succ = packedByte s := funext fun k => by
    refine BitVec.eq_of_getLsbD_eq fun x hx => ?_
    rw [Function.comp_apply, getLsbD_packedByte _ _ hx, getLsbD_packedByte _ _ hx,
      List.getD_append_right _ _ _ _ (by omega), hc]
    congr 1; omega
  rw [packBits_eq_map, hcount, List.range_succ_eq_map, List.map_cons, List.map_map, hfirst, hrest,
    packBits_eq_map]

@[simp] theorem bin_length (k v : Nat) : (bin k v).length = k := by simp [bin]

/-- The eight characters of a byte pack into that byte (R140, R141). -/
theorem packedByte_bin (b : Byte) : packedByte (bin 8 b.toNat) 0 = b := by
  refine BitVec.eq_of_getLsbD_eq fun x hx => ?_
  have hchar : (bin 8 b.toNat)[7 - x]? = some (b.toNat.testBit (8 - 1 - (7 - x))) := by
    rw [bin, List.getElem?_map, List.getElem?_range (by omega)]; rfl
  rw [getLsbD_packedByte _ _ hx, Nat.mul_zero, Nat.zero_add, List.getD_eq_getElem?_getD, hchar,
    Option.getD_some, BitVec.testBit_toNat]
  congr 1; omega

@[simp] theorem unpackBytes_nil : unpackBytes [] = [] := rfl

@[simp] theorem unpackBytes_cons (b : Byte) (bs : List Byte) :
    unpackBytes (b :: bs) = bin 8 b.toNat ++ unpackBytes bs := rfl

/-- The string of a byte sequence has eight characters per byte (R140). -/
@[simp] theorem unpackBytes_length (bs : List Byte) : (unpackBytes bs).length = 8 * bs.length := by
  induction bs with
  | nil => rfl
  | cons b bs ih => rw [unpackBytes_cons, List.length_append, bin_length, ih, List.length_cons]; omega

/-- Packing the string of a byte sequence gives the bytes back (R144). -/
@[simp] theorem packBits_unpackBytes (bs : List Byte) : packBits (unpackBytes bs) = bs := by
  induction bs with
  | nil => rfl
  | cons b bs ih => rw [unpackBytes_cons, packBits_append (bin_length _ _), packedByte_bin, ih]

/-- The eight bits of a byte of BITB are that byte's characters (R51, R140). -/
theorem bits_eq_bin (s : State) (k : Nat) : s.bits (8 * k) 8 = bin 8 (s.byte .bitb k).toNat := by
  refine List.map_congr_left fun t ht => ?_
  rw [bit_mul_add s k (List.mem_range.1 ht), BitVec.testBit_toNat]

/-- The bits of the first `k` bytes of BITB are the string of those bytes (R51, R145). -/
theorem bits_eq_unpackBytes (s : State) (k : Nat) :
    s.bits 0 (8 * k) = unpackBytes ((List.range k).map fun i => s.byte .bitb i) := by
  induction k with
  | zero => rfl
  | succ k ih =>
    rw [Nat.mul_succ, bits_add, ih, Nat.zero_add, bits_eq_bin, List.range_succ, List.map_append, unpackBytes,
      unpackBytes, List.flatMap_append]
    simp

/-- Bit `x` of a byte after the host cleared what is stale in it: of the byte that `len` ends in, the bits above
the end only (R145, R204). -/
theorem getLsbD_clearStale (b : Byte) (len : Nat) {x : Nat} (hx : x < 8) :
    (b &&& ~~~ mask (8 - len % 8)).getLsbD x = (decide (8 - len % 8 ≤ x) && b.getLsbD x) := by
  rw [BitVec.getLsbD_and, BitVec.getLsbD_not, getLsbD_mask _ _ (by omega)]
  by_cases h : x < 8 - len % 8
  · rw [decide_eq_true h, decide_eq_false (not_le.2 h), Bool.not_true, Bool.and_false, Bool.and_false,
      Bool.false_and]
  · rw [decide_eq_false h, decide_eq_true (not_lt.1 h), decide_eq_true hx, Bool.not_false, Bool.true_and,
      Bool.and_true, Bool.true_and]

/-- Byte `k` of the packing of the first `len` bits of BIT: the byte of BITB, cleared of what is stale (R145). -/
theorem packedByte_bits (s : State) {len k : Nat} (hk : k < (len + 7) / 8) :
    packedByte (s.bits 0 len) k =
      if k = len / 8 then s.byte .bitb k &&& ~~~ mask (8 - len % 8) else s.byte .bitb k := by
  refine BitVec.eq_of_getLsbD_eq fun x hx => ?_
  have hchar : (packedByte (s.bits 0 len) k).getLsbD x =
      (decide (8 * k + (7 - x) < len) && (s.byte .bitb k).getLsbD x) := by
    rw [getLsbD_packedByte _ _ hx, List.getD_eq_getElem?_getD, getLsbD_byte_bitb s k hx]
    by_cases hlt : 8 * k + (7 - x) < len
    · rw [bits_getElem? _ _ _ _ hlt, Option.getD_some, Nat.zero_add, decide_eq_true hlt, Bool.true_and]
    · rw [List.getElem?_eq_none (by rw [bits_length]; omega), Option.getD_none, decide_eq_false hlt,
        Bool.false_and]
  rw [hchar]
  split
  case isTrue heq =>
    rw [getLsbD_clearStale _ _ hx, decide_eq_decide.2 (show 8 * k + (7 - x) < len ↔ 8 - len % 8 ≤ x by omega)]
  case isFalse hne => rw [decide_eq_true (by omega), Bool.true_and]

/-- Settles O54: eight bits per byte by `bits_eq_unpackBytes`, and the bytes read back by `packedByte_bits`. -/
theorem bytesOfBitbAreTheBitString : Obligations.BytesOfBitbAreTheBitString := by
  unfold Obligations.BytesOfBitbAreTheBitString
  intro s bytes len
  refine ⟨fun hbytes => ?_, ?_⟩
  · rw [bits_eq_unpackBytes]
    congr 1
    refine List.ext_getElem? fun k => ?_
    by_cases hk : k < bytes.length
    · rw [hbytes k hk, List.getElem?_map, List.getElem?_range hk]; rfl
    · rw [List.getElem?_eq_none (by simpa using hk), List.getElem?_eq_none (by simpa using hk)]
  · rw [packBits_eq_map, bits_length]
    refine List.ext_getElem (by simp [clearStaleBits]) fun k hk _ => ?_
    have hk' : k < (len + 7) / 8 := by simpa using hk
    simp only [clearStaleBits, List.getElem_map, List.getElem_range, List.getElem_mapIdx]
    exact packedByte_bits s hk'

end Sys2Proof.Machine
end

section
/-! PROOFS. The host's codec (spec/45_host_binarycodec.md R140 to R144, R148; log 11): each codepoint's UTF-8 bytes
decode to that codepoint, so a message comes back. -/

namespace Sys2Proof.Machine

/-- A byte below 80 is a codepoint by itself. -/
theorem leadShape_one {v : Nat} (hv : v < 0x80) : leadShape (BitVec.ofNat 8 v) = some (v, 0, 0) := by
  have hval : (BitVec.ofNat 8 v).toNat = v := Nat.mod_eq_of_lt (by omega)
  simp only [leadShape, hval]
  rw [if_pos hv]

/-- A lead byte from C0 on with a payload of five bits starts a sequence of two bytes. -/
theorem leadShape_two {p : Nat} (hp : p < 0x20) :
    leadShape (BitVec.ofNat 8 (0xC0 + p)) = some (p, 1, 0x80) := by
  have hval : (BitVec.ofNat 8 (0xC0 + p)).toNat = 0xC0 + p := Nat.mod_eq_of_lt (by omega)
  simp only [leadShape, hval]
  rw [if_neg (by omega), if_neg (by omega), if_pos (by omega), Nat.add_sub_cancel_left]

/-- A lead byte from E0 on with a payload of four bits starts a sequence of three bytes. -/
theorem leadShape_three {p : Nat} (hp : p < 0x10) :
    leadShape (BitVec.ofNat 8 (0xE0 + p)) = some (p, 2, 0x800) := by
  have hval : (BitVec.ofNat 8 (0xE0 + p)).toNat = 0xE0 + p := Nat.mod_eq_of_lt (by omega)
  simp only [leadShape, hval]
  rw [if_neg (by omega), if_neg (by omega), if_neg (by omega), if_pos (by omega), Nat.add_sub_cancel_left]

/-- A lead byte from F0 on with a payload of three bits starts a sequence of four bytes. -/
theorem leadShape_four {p : Nat} (hp : p < 8) :
    leadShape (BitVec.ofNat 8 (0xF0 + p)) = some (p, 3, 0x10000) := by
  have hval : (BitVec.ofNat 8 (0xF0 + p)).toNat = 0xF0 + p := Nat.mod_eq_of_lt (by omega)
  simp only [leadShape, hval]
  rw [if_neg (by omega), if_neg (by omega), if_neg (by omega), if_neg (by omega), if_pos (by omega),
    Nat.add_sub_cancel_left]

/-- A continuation byte carries six bits. -/
theorem contPayload_ofNat (y : Nat) : contPayload (BitVec.ofNat 8 (0x80 + y % 64)) = some (y % 64) := by
  have hval : (BitVec.ofNat 8 (0x80 + y % 64)).toNat = 0x80 + y % 64 := Nat.mod_eq_of_lt (by omega)
  simp only [contPayload, hval]
  rw [if_pos (by omega), Nat.add_sub_cancel_left]

@[simp] theorem takeConts_zero (acc : Nat) (bs : List Byte) : takeConts 0 acc bs = some acc := by
  rw [takeConts]

/-- A continuation byte in front is folded into the payload. -/
@[simp] theorem takeConts_ofNat (k acc y : Nat) (rest : List Byte) :
    takeConts (k + 1) acc (BitVec.ofNat 8 (0x80 + y % 64) :: rest) = takeConts k (acc * 64 + y % 64) rest := by
  rw [takeConts, contPayload_ofNat]

/-- The codepoint at the front is found from its lead byte's shape and its payload, when it needed a sequence
this long. -/
theorem decodeFront_eq {c : Char} {b : Byte} {acc k lo : Nat} {rest : List Byte}
    (hlead : leadShape b = some (acc, k, lo)) (hconts : takeConts k acc rest = some c.toNat)
    (hlo : lo ≤ c.toNat) : decodeFront b rest = some (c, k) := by
  have hpoint : codepointAtLeast lo c.toNat = some c := by
    rw [codepointAtLeast, if_pos ⟨hlo, c.valid⟩, Char.ofNat_toNat]
  simp only [decodeFront, hlead, hconts, hpoint]
  rfl

/-- A codepoint lies below 110000 (hexadecimal). -/
theorem toNat_lt_of_char (c : Char) : c.toNat < 0x110000 := by
  have hvalid : c.toNat.isValidChar := c.valid
  rcases hvalid with h | ⟨_, h⟩
  · omega
  · exact h

/-- The UTF-8 bytes of a codepoint, in front of any others, decode to that codepoint (R144). -/
theorem utf8Bytes_decodes (c : Char) :
    ∃ b conts, utf8Bytes c = b :: conts ∧
      ∀ rest, decodeFront b (conts ++ rest) = some (c, conts.length) := by
  have hmax := toNat_lt_of_char c
  simp only [utf8Bytes]
  split
  case isTrue h1 =>
    refine ⟨_, [], rfl, fun rest => decodeFront_eq (leadShape_one (by omega)) ?_ (by omega)⟩
    simp only [List.length_nil, takeConts_zero, Nat.zero_add, Nat.div_one]
  case isFalse h1 =>
  split
  case isTrue h2 =>
    refine ⟨_, _, rfl, fun rest => decodeFront_eq (leadShape_two (by omega)) ?_ (by omega)⟩
    simp only [List.length_cons, List.length_nil, List.cons_append, takeConts_ofNat, takeConts_zero]
    congr 1; omega
  case isFalse h2 =>
  split
  case isTrue h3 =>
    refine ⟨_, _, rfl, fun rest => decodeFront_eq (leadShape_three (by omega)) ?_ (by omega)⟩
    simp only [List.length_cons, List.length_nil, List.cons_append, takeConts_ofNat, takeConts_zero]
    congr 1; omega
  case isFalse h3 =>
    refine ⟨_, _, rfl, fun rest => decodeFront_eq (leadShape_four (by omega)) ?_ (by omega)⟩
    simp only [List.length_cons, List.length_nil, List.cons_append, takeConts_ofNat, takeConts_zero]
    congr 1; omega

theorem messageBytes_cons (c : Char) (msg : Message) :
    messageBytes (c :: msg) = utf8Bytes c ++ messageBytes msg := rfl

/-- The UTF-8 bytes of a message decode to that message, with any bound that admits them all (R144). -/
theorem utf8Decode_messageBytes (msg : Message) {fuel : Nat} (h : (messageBytes msg).length ≤ fuel) :
    utf8Decode fuel (messageBytes msg) = msg := by
  induction msg generalizing fuel with
  | nil => cases fuel <;> rfl
  | cons c msg ih =>
    obtain ⟨b, conts, hbytes, hfront⟩ := utf8Bytes_decodes c
    rw [messageBytes_cons, hbytes, List.cons_append] at h ⊢
    rw [List.length_cons, List.length_append] at h
    cases fuel with
    | zero => omega
    | succ fuel => simp only [utf8Decode, hfront, List.drop_left, ih (fuel := fuel) (by omega)]

/-- A message that is encoded and decoded comes back (R144). -/
theorem decodeMessage_encodeMessage (msg : Message) : decodeMessage (encodeMessage msg) = msg := by
  simp only [decodeMessage, encodeMessage, packBits_unpackBytes]
  exact utf8Decode_messageBytes msg le_rfl

/-- Settles O53: the round trip by `decodeMessage_encodeMessage`, and the document's examples by evaluation. -/
theorem codecRoundTrip : Obligations.CodecRoundTrip := by
  unfold Obligations.CodecRoundTrip
  exact ⟨fun msg => ⟨decodeMessage_encodeMessage msg, unpackBytes_length _⟩, rfl, by decide, by decide⟩

/-- The encoding of a message of one codepoint or more is not empty (R140). -/
theorem one_le_length_encodeMessage {msg : Message} (h : msg ≠ []) : 1 ≤ (encodeMessage msg).length := by
  obtain ⟨c, msg, rfl⟩ := List.exists_cons_of_ne_nil h
  obtain ⟨b, conts, hbytes, _⟩ := utf8Bytes_decodes c
  rw [encodeMessage, unpackBytes_length, messageBytes_cons, hbytes, List.cons_append, List.length_cons]
  omega

/-- Settles O52: the width divides the length of the string, so the string comes back by the round trip's first
case, and the codec gives the message back from it. -/
theorem hiddenMessageComesBack : Obligations.HiddenMessageComesBack := by
  unfold Obligations.HiddenMessageComesBack
  intro s t u msg hInv hmsg hcount hbits hdvd h hok hcap hnbits hbuflen hsrc hlength
  obtain ⟨v, hv, _, hfull, _⟩ :=
    revealAfterHideReturns s t u hInv h hok hcap hnbits hbuflen hsrc hlength
  obtain ⟨_, hback⟩ := hfull (hcount ▸ one_le_length_encodeMessage hmsg) hdvd
  refine ⟨v, hv, ?_⟩
  rw [hback, hbits, decodeMessage_encodeMessage]

end Sys2Proof.Machine
end

section
/-! PROOFS. The small statements: the first commands after reset (spec/70_reset_and_hazards.md section 1), the
decoder and the encoder (spec/30_encoding.md R80, R81), `fmod` (spec/00_scope.md R13), and the flattening order of
an image (spec/20_memory.md R64). -/

namespace Sys2Proof.Machine

/-- Settles O2: at reset the buffer and the string are empty, so HIDE has no lane (O36) and REVEAL no result
(O45). -/
theorem firstCommandsAfterResetSucceed : Obligations.FirstCommandsAfterResetSucceed := by
  unfold Obligations.FirstCommandsAfterResetSucceed
  obtain ⟨t, ht, _, _, _, _, hempty, _⟩ :=
    revealResultLengths State.reset resetStateIsWellFormed (Nat.zero_le _)
  exact ⟨rfl, rfl, rfl, (hideOfNothingAndIntoNothing State.reset).2.1 rfl rfl, hempty rfl ▸ ht⟩

/-- Settles O6: each word is decoded by evaluation. -/
theorem wordsOfTheVectorsDecode : Obligations.WordsOfTheVectorsDecode := by
  unfold Obligations.WordsOfTheVectorsDecode
  decide

/-- Settles O8: both directions are `decode_eq_ok_iff`. -/
theorem decodeAndEncodeAgree : Obligations.DecodeAndEncodeAgree := by
  unfold Obligations.DecodeAndEncodeAgree
  exact ⟨fun i => (decode_eq_ok_iff _ i).2 rfl, fun w i h => ((decode_eq_ok_iff w i).1 h).symm⟩

/-- `fmod` is Lean's floor-style remainder (R13). -/
theorem fmod_eq (a b : Int) : fmod a b = Int.fmod a b := (Int.fmod_def a b).symm

/-- `fmod` changes its sign with both of its arguments (R13). -/
theorem fmod_neg (a b : Int) : fmod a (-b) = -fmod (-a) b := by
  rw [fmod_eq, fmod_eq, ← Int.neg_fmod_neg, neg_neg]

/-- Settles O19: the quotient is the floor division, a positive divisor's remainder is Lean's, and `fmod_neg` brings
a negative divisor to a positive one. -/
theorem fmodTakesTheSignOfTheDivisor : Obligations.FmodTakesTheSignOfTheDivisor := by
  unfold Obligations.FmodTakesTheSignOfTheDivisor
  intro a b _
  have hpos : ∀ x y : Int, 0 < y → 0 ≤ fmod x y ∧ fmod x y < y := fun x y hy => by
    rw [fmod_eq]
    exact ⟨Int.fmod_nonneg_of_pos x hy, Int.fmod_lt_of_pos x hy⟩
  refine ⟨⟨Int.fdiv a b, ?_⟩, hpos a b, fun hb => ?_, fmod_neg a b⟩
  · rw [fmod_eq, Int.mul_fdiv_add_fmod]
  · have hflip := fmod_neg (a := a) (b := -b)
    rw [neg_neg] at hflip
    have hneg := hpos (-a) (-b) (by omega)
    omega

/-- A digit and the digits above it determine each other (R64). -/
theorem eq_of_mul_add_eq {w a b x y : Nat} (hx : x < w) (hy : y < w) (h : a * w + x = b * w + y) :
    a = b ∧ x = y := by
  have hdiv : ∀ {c z : Nat}, z < w → (c * w + z) / w = c := fun hz => by
    rw [Nat.mul_comm, Nat.mul_add_div (by omega), Nat.div_eq_of_lt hz, Nat.add_zero]
  have hab : a = b := by rw [← hdiv (c := a) hx, h, hdiv hy]
  subst hab
  exact ⟨rfl, by omega⟩

/-- A digit below a number below `h` stays below `h * w` (R64). -/
theorem mul_add_lt {w h a x : Nat} (ha : a < h) (hx : x < w) : a * w + x < h * w :=
  calc a * w + x < a * w + w := by omega
    _ = (a + 1) * w := (Nat.succ_mul a w).symm
    _ ≤ h * w := Nat.mul_le_mul_right w ha

/-- Settles O55: the index is a number with the digits row, column and channel, in that order. -/
theorem flatteningIsRowMajorChannelLast : Obligations.FlatteningIsRowMajorChannelLast := by
  unfold Obligations.FlatteningIsRowMajorChannelLast flatIndex
  intro h w c y x ch hy hx hch
  refine ⟨mul_add_lt (mul_add_lt hy hx) hch, fun y' x' ch' hx' hch' heq => ?_, rfl, ?_⟩
  · obtain ⟨hpixel, hchannel⟩ := eq_of_mul_add_eq hch hch' heq
    obtain ⟨hrow, hcolumn⟩ := eq_of_mul_add_eq hx hx' hpixel
    exact ⟨hrow, hcolumn, hchannel⟩
  · rw [← Nat.add_assoc, Nat.succ_mul]
    omega

end Sys2Proof.Machine
end
